-- ==== Sys2Proof/Word.lean ====
section
/-! DEFINITION. The word types of the machine: 16-bit data words and registers, bytes, 32-bit instructions (R2). -/

namespace Sys2Proof

/-- A register or data word, 16 bits (R2). -/
abbrev Word := BitVec 16

/-- One byte of data memory (R23). -/
abbrev Byte := BitVec 8

/-- One instruction, the number `W` of R4: source bit s has weight 2^(31-s), so the opcode is `W[31:28]`. -/
abbrev InstrWord := BitVec 32

end Sys2Proof
end

