-- ==== Sys2Proof/Syntax.lean ====
section
/-! DEFINITION. The instructions as syntax: registers, the second operand, and one constructor for each row of spec/opcode_table.json. -/

namespace Sys2Proof

/-- The sixteen registers a 4-bit register field names (R10, R51). -/
inductive Reg where
  | r0 | r1 | r2 | r3 | r4 | r5 | r6 | r7 | r8 | r9 | r10 | r11 | r12 | r13 | r14 | r15
  deriving DecidableEq, Repr, Inhabited

/-- The operand that the bit `ir` selects (R54, R55): the 16-bit immediate (`ir` = 0) or a register (`ir` = 1). -/
inductive Operand where
  | imm (v : Word)
  | reg (r : Reg)
  deriving DecidableEq, Repr, Inhabited

/-- One constructor for each row of the opcode table (R52). Operands stand in the assembler's order, the
destination last (R60). -/
inductive Instr where
  /-- HLT (R70). -/
  | hlt
  /-- JEQ target (R72). -/
  | jeq (target : Operand)
  /-- JNE target (R73). -/
  | jne (target : Operand)
  /-- JGT target (R74). -/
  | jgt (target : Operand)
  /-- JGE target (R75). -/
  | jge (target : Operand)
  /-- JLT target (R76). -/
  | jlt (target : Operand)
  /-- JLE target (R77). -/
  | jle (target : Operand)
  /-- JOV target (R78). -/
  | jov (target : Operand)
  /-- JMP target (R79). -/
  | jmp (target : Operand)
  /-- ATS (R80). -/
  | ats
  /-- ATE (R81). -/
  | ate
  /-- INT type (R105). -/
  | int (type : Operand)
  /-- Return From Trap (R106). -/
  | rft
  /-- Timer (R107): the four cells of its table row; `ty` is the type code, whose meanings the spec does not give. -/
  | tmr (ty : Nat) (ir : Bool) (ra : Reg) (imm : Word)
  /-- MOV $imm rd (R85). -/
  | movImm (imm : Word) (rd : Reg)
  /-- MOV rs rd (R86). -/
  | movReg (rs rd : Reg)
  /-- MVB $imm[base] rd, byte load (R87). -/
  | mvbLoad (base : Reg) (imm : Word) (rd : Reg)
  /-- MVB rs $imm[base], byte store (R88). -/
  | mvbStore (rs : Reg) (imm : Word) (base : Reg)
  /-- MVW $imm[base] rd, word load (R89). -/
  | mvwLoad (base : Reg) (imm : Word) (rd : Reg)
  /-- MVW rs $imm[base], word store (R90). -/
  | mvwStore (rs : Reg) (imm : Word) (base : Reg)
  /-- SEQ src rd (R131). -/
  | seq (src : Operand) (rd : Reg)
  /-- SNE src rd (R132). -/
  | sne (src : Operand) (rd : Reg)
  /-- SGT src rd (R133). -/
  | sgt (src : Operand) (rd : Reg)
  /-- SGE src rd (R134). -/
  | sge (src : Operand) (rd : Reg)
  /-- SLT src rd (R135). -/
  | slt (src : Operand) (rd : Reg)
  /-- SLE src rd (R136). -/
  | sle (src : Operand) (rd : Reg)
  /-- SOV src rd (R137). -/
  | sov (src : Operand) (rd : Reg)
  /-- SCR src rd (R138). -/
  | scr (src : Operand) (rd : Reg)
  /-- ADD ra b rd (R112). -/
  | add (ra : Reg) (b : Operand) (rd : Reg)
  /-- SUB ra b rd (R113). -/
  | sub (ra : Reg) (b : Operand) (rd : Reg)
  /-- RSL ra b rd (R114). -/
  | rsl (ra : Reg) (b : Operand) (rd : Reg)
  /-- RSA ra b rd (R115). -/
  | rsa (ra : Reg) (b : Operand) (rd : Reg)
  /-- LSH ra b rd (R116). -/
  | lsh (ra : Reg) (b : Operand) (rd : Reg)
  /-- EXB ra b rd (R117). -/
  | exb (ra : Reg) (b : Operand) (rd : Reg)
  /-- AND ra b rd (R118). -/
  | and (ra : Reg) (b : Operand) (rd : Reg)
  /-- ORR ra b rd (R119). -/
  | orr (ra : Reg) (b : Operand) (rd : Reg)
  /-- XOR ra b rd (R120). -/
  | xor (ra : Reg) (b : Operand) (rd : Reg)
  /-- CNT ra b rd (R121): `b` stands in the word and is not read. -/
  | cnt (ra : Reg) (b : Operand) (rd : Reg)
  deriving DecidableEq, Repr, Inhabited

end Sys2Proof
end

