-- ==== Sys2Proof/Machine/Parts.lean ====
section
/-! DEFINITION. The parts State is made of: the register file r1 to r12, the flags, the special bits, and a memory as
plain data in one canonical form. They stand before Config, whose free values range over them. -/

namespace Sys2Proof.Machine

/-- The four flags (R15): Zero, Negative, Carry, Overflow. -/
structure Flags where
  z : Bool
  n : Bool
  c : Bool
  o : Bool
  deriving DecidableEq, Repr, Inhabited

/-- The two special bits (R16). -/
structure Special where
  atomic : Bool
  kernel : Bool
  deriving DecidableEq, Repr, Inhabited

/-- The plain registers r1 to r12 (R12, R13). r0 is no state (R11); r13, r14 and r15 are views of other fields of
State (R14, R15, R17). -/
structure RegFile where
  r1 : Word
  r2 : Word
  r3 : Word
  r4 : Word
  r5 : Word
  r6 : Word
  r7 : Word
  r8 : Word
  r9 : Word
  r10 : Word
  r11 : Word
  r12 : Word
  deriving DecidableEq, Repr, Inhabited

/-- The stored value of a plain register; the zero register and the three views, which are not stored here, give 0. -/
def RegFile.get (f : RegFile) : Reg → Word
  | .r1 => f.r1
  | .r2 => f.r2
  | .r3 => f.r3
  | .r4 => f.r4
  | .r5 => f.r5
  | .r6 => f.r6
  | .r7 => f.r7
  | .r8 => f.r8
  | .r9 => f.r9
  | .r10 => f.r10
  | .r11 => f.r11
  | .r12 => f.r12
  | .r0 | .r13 | .r14 | .r15 => 0

/-- Store a value in a plain register; any other number changes nothing here. -/
def RegFile.set (f : RegFile) (r : Reg) (v : Word) : RegFile :=
  match r with
  | .r1 => { f with r1 := v }
  | .r2 => { f with r2 := v }
  | .r3 => { f with r3 := v }
  | .r4 => { f with r4 := v }
  | .r5 => { f with r5 := v }
  | .r6 => { f with r6 := v }
  | .r7 => { f with r7 := v }
  | .r8 => { f with r8 := v }
  | .r9 => { f with r9 := v }
  | .r10 => { f with r10 := v }
  | .r11 => { f with r11 := v }
  | .r12 => { f with r12 := v }
  | .r0 | .r13 | .r14 | .r15 => f

/-- Sparse contents by address. The canonical form (`Cells.wf`) has strictly rising addresses below 2^16; an address
that is not listed has no value. -/
abbrev Cells (α : Type) := List (Nat × α)

/-- What an address holds: `none` where nothing is listed. -/
def Cells.get {α : Type} : Cells α → Nat → Option α
  | [], _ => none
  | (a, v) :: m, k => if k = a then some v else Cells.get m k

/-- Set what an address holds, in its place in the rising order. -/
def Cells.put {α : Type} : Cells α → Nat → α → Cells α
  | [], k, x => [(k, x)]
  | (a, v) :: m, k, x =>
    if k < a then (k, x) :: (a, v) :: m
    else if k = a then (k, x) :: m
    else (a, v) :: Cells.put m k x

/-- The addresses rise strictly, from `lo` on. -/
def Cells.risingFrom {α : Type} : Nat → Cells α → Bool
  | _, [] => true
  | lo, (a, _) :: m => decide (lo ≤ a) && Cells.risingFrom (a + 1) m

/-- The canonical form: strictly rising addresses, all below 2^16. -/
def Cells.wf {α : Type} (m : Cells α) : Bool :=
  Cells.risingFrom 0 m && m.all (fun c => decide (c.1 < 65536))

/-- Data memory (R23): the bytes that something has written, as `Host.Cell`s. -/
abbrev Memory := Cells Byte

/-- Data memory is in its canonical form. -/
def Memory.wf (m : Memory) : Bool := Cells.wf m

/-- Instruction memory (R22): the loaded slots, 32 bits each. -/
abbrev InstrMemory := Cells InstrWord

/-- Which register read of an instruction a free value belongs to: an instruction reads at most two registers. -/
inductive ReadSlot where
  | first
  | second
  deriving DecidableEq, Repr, Inhabited

/-- The two flags that the spec draws (R111). -/
inductive DrawnFlag where
  | carry
  | overflow
  deriving DecidableEq, Repr, Inhabited

end Sys2Proof.Machine
end

