-- ==== Sys2Proof/Config.lean ====
section
/-! DEFINITION. The parameters of spec/00_scope.md section 4 and the free values. A parameter for which the spec gives a
default is fixed at that default (each a DESIGN CHOICE with a log entry); one without a default, and every drawn
value, is an opaque constant: nothing in Lean can evaluate it or prove a value of it. -/

namespace Sys2Proof

/-- What a byte load puts in bits 15:8 of its destination (R36). -/
inductive ByteLoadExt where
  | zero
  | sign
  | keep
  deriving DecidableEq, Repr, Inhabited

/-- What a set instruction writes when its condition is false (R130). -/
inductive SetElse where
  | unchanged
  | zero
  deriving DecidableEq, Repr, Inhabited

/-- What the carry flag means after SUB (R111). -/
inductive SubCarry where
  | borrow
  | notBorrow
  deriving DecidableEq, Repr, Inhabited

/-- The result of a shift by 16 or more (R114 to R116). -/
inductive ShiftOver where
  | mod16
  | saturate
  deriving DecidableEq, Repr, Inhabited

/-- The result of EXB with a bit index of 16 or more (R117). -/
inductive ExbOver where
  | mod16
  | zero
  deriving DecidableEq, Repr, Inhabited

/-- The destination of the pseudo-instructions CMP and TST (R123, R124). -/
inductive CmpTstDest where
  | literal
  | r0
  deriving DecidableEq, Repr, Inhabited

/-- What the machine does with the operand forms whose behaviour the spec leaves unsettled, a read of r15 and a write of
r13, r14 or r15 (R19, R20): refuse them, or run them on the open parameters and free values below. -/
inductive OperandPolicy where
  | refuse
  | run
  deriving DecidableEq, Repr, Inhabited

/-- What the environment can see at an INT (R105): the interrupt type, the three argument registers, and every other
piece of the machine's state. -/
structure EnvCall where
  type : Word
  arg1 : Word
  arg2 : Word
  arg3 : Word
  regs : Machine.RegFile
  flags : Machine.Flags
  special : Machine.Special
  cycleCounter : Word
  pc : Word
  inFlight : List (Nat × Word)
  mem : Machine.Memory
  imem : Machine.InstrMemory
  trapTimer : Nat
  draws : Nat
  deriving DecidableEq, Repr, Inhabited

/-- What the environment leaves when the program resumes after an INT (R105, R143): anything at all in the registers,
the flags, the special bits, the cycle counter and the trap and timer state, and any bytes of data memory written. -/
structure EnvReply where
  regs : Machine.RegFile
  flags : Machine.Flags
  special : Machine.Special
  cycleCounter : Word
  trapTimer : Nat
  writes : List (Word × Byte)
  deriving DecidableEq, Repr, Inhabited

namespace Config

/-- PC_STEP, R18. DESIGN CHOICE (log 1): the spec's default. Unsafe. -/
def pcStep : Word := 1

/-- UNIFIED_MEMORY, R30. DESIGN CHOICE (log 2): the spec's default, two memories. Unsafe. -/
def unifiedMemory : Bool := false

/-- MEM_MAPPED, R32. DESIGN CHOICE (log 3): the spec's default, every data address exists. Unsafe. -/
def memMapped (_ : Word) : Bool := true

/-- BYTE_LOAD_EXT, R36. DESIGN CHOICE (log 4): the spec's default. Unsafe. -/
def byteLoadExt : ByteLoadExt := .zero

/-- SET_ELSE, R130. DESIGN CHOICE (log 5): the spec's default. Unsafe. -/
def setElse : SetElse := .unchanged

/-- RESET_PC, R161. DESIGN CHOICE (log 6): the spec's default. Unsafe. -/
def resetPc : Word := 0

/-- The spec's decisions D9, D13 and D14 (R19, R20, R146): the model refuses these operand forms. -/
def operandPolicy : OperandPolicy := .refuse

/-- CMP_TST_DEST, R123. DESIGN CHOICE (log 37): the spec's default; it concerns the assembler only. -/
def cmpTstDest : CmpTstDest := .literal

/-- OPC_RFT, R59. DESIGN CHOICE (log 23): the spec's suggestion. Safe: both opcodes end in a refusal. -/
def opcRft : BitVec 4 := 0x4

/-- OPC_TMR, R59. DESIGN CHOICE (log 23): the spec's suggestion. Safe: both opcodes end in a refusal. -/
def opcTmr : BitVec 4 := 0x5

/-- DATA_BIG_ENDIAN, R33: no default (log 10). -/
opaque dataBigEndian : Bool

/-- SUB_CARRY, R111: no default (log 11). -/
opaque subCarry : SubCarry

/-- SHIFT_OVER, R114: no default (log 12). -/
opaque shiftOver : ShiftOver

/-- EXB_OVER, R117: no default (log 13). -/
opaque exbOver : ExbOver

/-- PC_READ_OFFSET, R19: no default; met only where the policy is to run the read (logs 14, 41). -/
opaque pcReadOffset : Word

/-- R15_WRITE, first half (R20, R103): what the hardware adds to a value written to r15, the K of R103 (log 15). -/
opaque r15WriteOffset : Word

/-- R15_WRITE, second half (R20, R103): how many more instructions run before a write to r15 takes effect (log 15). -/
opaque r15WriteDelay : Nat

/-- The value of a data byte that nothing has written since reset: free, fixed for the run (R26, U10; log 9). -/
opaque initialByte : Word → Byte

/-- The value a read of r13 draws (R14): by the step, the read, and the counter's last value (log 16). -/
opaque cycleRead : Nat → Machine.ReadSlot → Word → Word

/-- What the cycle counter holds after a write to r13: by the step, the value it held and the value written (log 16). -/
opaque cycleWrite : Nat → Word → Word → Word

/-- What the cycle counter holds after a step (log 16). -/
opaque cycleTick : Nat → Word → Word

/-- Bits 15:4 of a read of r14 (R19): the special bits may or may not show there (log 17). -/
opaque r14Upper : Nat → Machine.ReadSlot → Machine.Flags → Machine.Special → BitVec 12

/-- The flags after a write to r14 (R20): by the step, the flags and special bits before, and the value written (log 18). -/
opaque r14WriteFlags : Nat → Machine.Flags → Machine.Special → Word → Machine.Flags

/-- The special bits after a write to r14 (R20; log 18). -/
opaque r14WriteSpecial : Nat → Machine.Flags → Machine.Special → Word → Machine.Special

/-- C or O after RSL, RSA, LSH, EXB, AND, ORR, XOR or CNT (R111): by the step, the flag, the two operands and the flags
before (log 19). -/
opaque drawnFlag : Nat → Machine.DrawnFlag → Word → Word → Machine.Flags → Bool

/-- ENV_INT, R105: what the operating system has done when the program resumes after an INT (log 21). -/
opaque envInt : EnvCall → EnvReply

end Config

end Sys2Proof
end

