-- ==== Sys2Proof/WellFormed.lean ====
section
/-! DEFINITION. Which terms of `Instr` stand for an instruction word. Every field but one has the type of its
encoding field (a register is one of sixteen, an immediate has 16 bits), so one check is left: the Timer's type code. -/

namespace Sys2Proof

/-- The type code of a Timer instruction fits its three-bit field I<4..6> (R56, format T; R107). -/
def timerTypeFits (ty : Nat) : Bool := decide (ty < 8)

/-- The instruction has an encoding: every field fits its place in the word (R51, R56). -/
def Instr.wellFormed : Instr → Bool
  | .tmr ty _ _ _ => timerTypeFits ty
  | .hlt | .jeq _ | .jne _ | .jgt _ | .jge _ | .jlt _ | .jle _ | .jov _ | .jmp _ | .ats | .ate | .int _ | .rft => true
  | .movImm _ _ | .movReg _ _ | .mvbLoad _ _ _ | .mvbStore _ _ _ | .mvwLoad _ _ _ | .mvwStore _ _ _ => true
  | .seq _ _ | .sne _ _ | .sgt _ _ | .sge _ _ | .slt _ _ | .sle _ _ | .sov _ _ | .scr _ _ => true
  | .add _ _ _ | .sub _ _ _ | .rsl _ _ _ | .rsa _ _ _ | .lsh _ _ _ | .exb _ _ _ => true
  | .and _ _ _ | .orr _ _ _ | .xor _ _ _ | .cnt _ _ _ => true

end Sys2Proof
end

