-- ==== Sys2Proof/Decode.lean ====
section
/-! DEFINITION. Decoding a 32-bit word, total, rejecting by name (R50 to R58), and the encoder written from the same
formats (R56). -/

namespace Sys2Proof

/-- Why a word is no instruction: an unlisted type code (R58), or a 1 in a bit its instruction does not use (R57). -/
inductive DecodeError where
  | reservedEncoding
  | noncanonical
  deriving DecidableEq, Repr, Inhabited

/-- The register a 4-bit field names (R10, R51). -/
def Reg.ofBits (b : BitVec 4) : Reg :=
  match b.toNat with
  | 0 => .r0
  | 1 => .r1
  | 2 => .r2
  | 3 => .r3
  | 4 => .r4
  | 5 => .r5
  | 6 => .r6
  | 7 => .r7
  | 8 => .r8
  | 9 => .r9
  | 10 => .r10
  | 11 => .r11
  | 12 => .r12
  | 13 => .r13
  | 14 => .r14
  | _ => .r15

/-- The 4-bit field that names a register. -/
def Reg.toBits : Reg → BitVec 4
  | .r0 => 0
  | .r1 => 1
  | .r2 => 2
  | .r3 => 3
  | .r4 => 4
  | .r5 => 5
  | .r6 => 6
  | .r7 => 7
  | .r8 => 8
  | .r9 => 9
  | .r10 => 10
  | .r11 => 11
  | .r12 => 12
  | .r13 => 13
  | .r14 => 14
  | .r15 => 15

/-- The six fields of every instruction word (R51). Reg B and the twelve zeros lie inside `imm`. -/
structure Fields where
  op : BitVec 4
  ty : BitVec 3
  ir : BitVec 1
  ra : BitVec 4
  imm : BitVec 16
  rd : BitVec 4
  deriving DecidableEq, Repr, Inhabited

/-- Cut a word into its fields: `op` W[31:28], `ty` W[27:25], `ir` W[24], `ra` W[23:20], `imm` W[19:4], `rd` W[3:0] (R51). -/
def Fields.ofWord (w : InstrWord) : Fields where
  op := w.extractLsb' 28 4
  ty := w.extractLsb' 25 3
  ir := w.extractLsb' 24 1
  ra := w.extractLsb' 20 4
  imm := w.extractLsb' 4 16
  rd := w.extractLsb' 0 4

/-- Put the fields together, the opcode leftmost (R4, R51). -/
def Fields.toWord (f : Fields) : InstrWord :=
  f.op ++ f.ty ++ f.ir ++ f.ra ++ f.imm ++ f.rd

/-- Reg B, W[19:16]: the top of the immediate field (R51). -/
def Fields.rb (f : Fields) : BitVec 4 := f.imm.extractLsb' 12 4

/-- The twelve zeros after Reg B, W[15:4] (R51). -/
def Fields.z12 (f : Fields) : BitVec 12 := f.imm.extractLsb' 0 12

/-- Accept a canonical word, refuse any other (R57). -/
def whenCanonical (ok : Bool) (i : Instr) : Except DecodeError Instr :=
  if ok then .ok i else .error .noncanonical

/-- The second operand of the ALU and Set groups (R55): the immediate, or Reg B. -/
def Fields.operandB (f : Fields) : Operand :=
  if f.ir = 0 then .imm f.imm else .reg (Reg.ofBits f.rb)

/-- In a register form of the ALU and Set groups the twelve bits after Reg B are zero (R57). -/
def Fields.operandBCanonical (f : Fields) : Bool := f.ir == 0 || f.z12 == 0

/-- The operand of the Jump and OS Interrupt groups (R55): the immediate, or the register in the Reg A place. -/
def Fields.operandA (f : Fields) : Operand :=
  if f.ir = 0 then .imm f.imm else .reg (Reg.ofBits f.ra)

/-- In a Jump or OS Interrupt word the operand field that `ir` does not select, and I<28..31>, are zero (R57). -/
def Fields.operandACanonical (f : Fields) : Bool :=
  f.rd == 0 && (if f.ir = 0 then f.ra == 0 else f.imm == 0)

/-- Format H (R56): the whole word is zero. -/
def decodeHalt (f : Fields) : Except DecodeError Instr :=
  if f.ty = 0 then whenCanonical (f.ir == 0 && f.ra == 0 && f.imm == 0 && f.rd == 0) .hlt
  else .error .reservedEncoding

/-- Format J (R56): all eight type codes are used (R71). -/
def decodeJump (f : Fields) : Except DecodeError Instr :=
  whenCanonical f.operandACanonical
    (match f.ty.toNat with
      | 0 => .jeq f.operandA
      | 1 => .jne f.operandA
      | 2 => .jgt f.operandA
      | 3 => .jge f.operandA
      | 4 => .jlt f.operandA
      | 5 => .jle f.operandA
      | 6 => .jov f.operandA
      | _ => .jmp f.operandA)

/-- Format A (R56): s/e at I<6> is 0 for ATS and 1 for ATE (R53). -/
def decodeAtomic (f : Fields) : Except DecodeError Instr :=
  let ok := f.ir == 0 && f.ra == 0 && f.imm == 0 && f.rd == 0
  match f.ty.toNat with
  | 0 => whenCanonical ok .ats
  | 1 => whenCanonical ok .ate
  | _ => .error .reservedEncoding

/-- Format I (R56). -/
def decodeInt (f : Fields) : Except DecodeError Instr :=
  if f.ty = 0 then whenCanonical f.operandACanonical (.int f.operandA) else .error .reservedEncoding

/-- Format R (R56): everything after the opcode is zero (R57), and every other type code is reserved (R58). -/
def decodeRft (f : Fields) : Except DecodeError Instr :=
  if f.ty = 0 then whenCanonical (f.ir == 0 && f.ra == 0 && f.imm == 0 && f.rd == 0) .rft
  else .error .reservedEncoding

/-- Format T (R56): only I<28..31> is known to be unused (R57). -/
def decodeTmr (f : Fields) : Except DecodeError Instr :=
  whenCanonical (f.rd == 0) (.tmr f.ty.toNat (f.ir == 1) (Reg.ofBits f.ra) f.imm)

/-- Format M (R56): I<7> is zero; the first assembler operand's register is in the source field (R92). -/
def decodeMove (f : Fields) : Except DecodeError Instr :=
  match f.ty.toNat with
  | 0 => whenCanonical (f.ir == 0 && f.ra == 0) (.movImm f.imm (Reg.ofBits f.rd))
  | 1 => whenCanonical (f.ir == 0 && f.imm == 0) (.movReg (Reg.ofBits f.ra) (Reg.ofBits f.rd))
  | 2 => whenCanonical (f.ir == 0) (.mvbLoad (Reg.ofBits f.ra) f.imm (Reg.ofBits f.rd))
  | 3 => whenCanonical (f.ir == 0) (.mvbStore (Reg.ofBits f.ra) f.imm (Reg.ofBits f.rd))
  | 4 => whenCanonical (f.ir == 0) (.mvwLoad (Reg.ofBits f.ra) f.imm (Reg.ofBits f.rd))
  | 5 => whenCanonical (f.ir == 0) (.mvwStore (Reg.ofBits f.ra) f.imm (Reg.ofBits f.rd))
  | _ => .error .reservedEncoding

/-- Format S (R56): all eight type codes are used; I<8..11> is zero (R130). -/
def decodeSet (f : Fields) : Except DecodeError Instr :=
  whenCanonical (f.ra == 0 && f.operandBCanonical)
    (match f.ty.toNat with
      | 0 => .seq f.operandB (Reg.ofBits f.rd)
      | 1 => .sne f.operandB (Reg.ofBits f.rd)
      | 2 => .sgt f.operandB (Reg.ofBits f.rd)
      | 3 => .sge f.operandB (Reg.ofBits f.rd)
      | 4 => .slt f.operandB (Reg.ofBits f.rd)
      | 5 => .sle f.operandB (Reg.ofBits f.rd)
      | 6 => .sov f.operandB (Reg.ofBits f.rd)
      | _ => .scr f.operandB (Reg.ofBits f.rd))

/-- Format L (R56) for a group with one instruction, type code 000. -/
def decodeAlu1 (mk : Reg → Operand → Reg → Instr) (f : Fields) : Except DecodeError Instr :=
  if f.ty = 0 then whenCanonical f.operandBCanonical (mk (Reg.ofBits f.ra) f.operandB (Reg.ofBits f.rd))
  else .error .reservedEncoding

/-- Format L (R56) for a group with two instructions, type codes 000 and 001. -/
def decodeAlu2 (mk0 mk1 : Reg → Operand → Reg → Instr) (f : Fields) : Except DecodeError Instr :=
  match f.ty.toNat with
  | 0 => whenCanonical f.operandBCanonical (mk0 (Reg.ofBits f.ra) f.operandB (Reg.ofBits f.rd))
  | 1 => whenCanonical f.operandBCanonical (mk1 (Reg.ofBits f.ra) f.operandB (Reg.ofBits f.rd))
  | _ => .error .reservedEncoding

/-- The opcodes 0100 and 0101 belong to Return From Trap and Timer in the order Config gives (R59). -/
def decodeUnstated (f : Fields) : Except DecodeError Instr :=
  if f.op = Config.opcRft then decodeRft f else decodeTmr f

/-- The opcode map (R52). -/
def decodeFields (f : Fields) : Except DecodeError Instr :=
  match f.op.toNat with
  | 0 => decodeHalt f
  | 1 => decodeJump f
  | 2 => decodeAtomic f
  | 3 => decodeInt f
  | 4 => decodeUnstated f
  | 5 => decodeUnstated f
  | 6 => decodeMove f
  | 7 => decodeSet f
  | 8 => decodeAlu2 .add .sub f
  | 9 => decodeAlu2 .rsl .rsa f
  | 10 => decodeAlu1 .lsh f
  | 11 => decodeAlu1 .exb f
  | 12 => decodeAlu1 .and f
  | 13 => decodeAlu1 .orr f
  | 14 => decodeAlu1 .xor f
  | _ => decodeAlu1 .cnt f

/-- The instruction a word stands for, or why it stands for none. -/
def decode (w : InstrWord) : Except DecodeError Instr := decodeFields (Fields.ofWord w)

/-- Format J or I: the operand in the immediate place or in the Reg A place (R55, R56). -/
def fieldsOfOperandA (op : BitVec 4) (ty : BitVec 3) : Operand → Fields
  | .imm v => ⟨op, ty, 0, 0, v, 0⟩
  | .reg r => ⟨op, ty, 1, r.toBits, 0, 0⟩

/-- Format L or S: the second operand in the immediate place or in the Reg B place (R55, R56). -/
def fieldsOfOperandB (op : BitVec 4) (ty : BitVec 3) (ra : BitVec 4) (b : Operand) (rd : Reg) : Fields :=
  match b with
  | .imm v => ⟨op, ty, 0, ra, v, rd.toBits⟩
  | .reg r => ⟨op, ty, 1, ra, r.toBits ++ (0 : BitVec 12), rd.toBits⟩

/-- The fields of a well-formed instruction's canonical word (R52, R56, R57). -/
def fieldsOf : Instr → Fields
  | .hlt => ⟨0x0, 0, 0, 0, 0, 0⟩
  | .jeq t => fieldsOfOperandA 0x1 0 t
  | .jne t => fieldsOfOperandA 0x1 1 t
  | .jgt t => fieldsOfOperandA 0x1 2 t
  | .jge t => fieldsOfOperandA 0x1 3 t
  | .jlt t => fieldsOfOperandA 0x1 4 t
  | .jle t => fieldsOfOperandA 0x1 5 t
  | .jov t => fieldsOfOperandA 0x1 6 t
  | .jmp t => fieldsOfOperandA 0x1 7 t
  | .ats => ⟨0x2, 0, 0, 0, 0, 0⟩
  | .ate => ⟨0x2, 1, 0, 0, 0, 0⟩
  | .int t => fieldsOfOperandA 0x3 0 t
  | .rft => ⟨Config.opcRft, 0, 0, 0, 0, 0⟩
  | .tmr ty ir ra imm => ⟨Config.opcTmr, BitVec.ofNat 3 ty, BitVec.ofBool ir, ra.toBits, imm, 0⟩
  | .movImm imm rd => ⟨0x6, 0, 0, 0, imm, rd.toBits⟩
  | .movReg rs rd => ⟨0x6, 1, 0, rs.toBits, 0, rd.toBits⟩
  | .mvbLoad base imm rd => ⟨0x6, 2, 0, base.toBits, imm, rd.toBits⟩
  | .mvbStore rs imm base => ⟨0x6, 3, 0, rs.toBits, imm, base.toBits⟩
  | .mvwLoad base imm rd => ⟨0x6, 4, 0, base.toBits, imm, rd.toBits⟩
  | .mvwStore rs imm base => ⟨0x6, 5, 0, rs.toBits, imm, base.toBits⟩
  | .seq src rd => fieldsOfOperandB 0x7 0 0 src rd
  | .sne src rd => fieldsOfOperandB 0x7 1 0 src rd
  | .sgt src rd => fieldsOfOperandB 0x7 2 0 src rd
  | .sge src rd => fieldsOfOperandB 0x7 3 0 src rd
  | .slt src rd => fieldsOfOperandB 0x7 4 0 src rd
  | .sle src rd => fieldsOfOperandB 0x7 5 0 src rd
  | .sov src rd => fieldsOfOperandB 0x7 6 0 src rd
  | .scr src rd => fieldsOfOperandB 0x7 7 0 src rd
  | .add ra b rd => fieldsOfOperandB 0x8 0 ra.toBits b rd
  | .sub ra b rd => fieldsOfOperandB 0x8 1 ra.toBits b rd
  | .rsl ra b rd => fieldsOfOperandB 0x9 0 ra.toBits b rd
  | .rsa ra b rd => fieldsOfOperandB 0x9 1 ra.toBits b rd
  | .lsh ra b rd => fieldsOfOperandB 0xA 0 ra.toBits b rd
  | .exb ra b rd => fieldsOfOperandB 0xB 0 ra.toBits b rd
  | .and ra b rd => fieldsOfOperandB 0xC 0 ra.toBits b rd
  | .orr ra b rd => fieldsOfOperandB 0xD 0 ra.toBits b rd
  | .xor ra b rd => fieldsOfOperandB 0xE 0 ra.toBits b rd
  | .cnt ra b rd => fieldsOfOperandB 0xF 0 ra.toBits b rd

/-- The canonical word of a well-formed instruction. -/
def encode (i : Instr) : InstrWord := (fieldsOf i).toWord

/-- The word made of the low `nbits` bits of `w`, the bits above them zero. -/
def tableWord (nbits w : Nat) : InstrWord := BitVec.ofNat 32 (w % 2 ^ nbits)

/-- The instruction the decoder reads from a table row's word: instruction memory holds whole 32-bit slots (R37), so
the table's numbering of the bits is that of `W` (R4) and no byte order comes in. -/
def decodeTableWord (nbits w : Nat) : Option Instr := (decode (tableWord nbits w)).toOption

end Sys2Proof
end

