-- ==== Sys2Proof/Machine/State.lean ====
section
/-! DEFINITION. The machine's state as plain data, why a step can stop, and the state after reset. -/

namespace Sys2Proof.Machine

/-- Everything the spec gives the machine (R10 to R24), and one field of the model's own, `draws`. -/
structure State where
  /-- r1 to r12 (R12, R13). -/
  regs : RegFile
  /-- The cycle counter, seen as r13 (R14). -/
  cycleCounter : Word
  /-- Z, N, C, O, seen in r14 (R15). -/
  flags : Flags
  /-- The special bits Atomic and Kernel (R16). -/
  special : Special
  /-- The address of the instruction to be executed, seen as r15 (R17). -/
  pc : Word
  /-- Writes to r15 that have not taken effect yet, oldest first: how many more instructions run before the write
  takes effect, and the pc it then sets (R20, R103; DESIGN CHOICE, log 15). -/
  inFlight : List (Nat × Word)
  /-- The stop mark HLT sets (R21). -/
  halted : Bool
  /-- Data memory (R23): the bytes something has written. -/
  mem : Memory
  /-- Instruction memory (R22): the loaded program. -/
  imem : InstrMemory
  /-- The trap and timer state (R24), of unknown width and meaning: only the environment reads and writes it (log 22). -/
  trapTimer : Nat
  /-- The model's own: the number of the step, to which every free value of the step is applied (log 20). -/
  draws : Nat
  deriving DecidableEq, Repr, Inhabited

/-- Why the machine stops with a fault (R146): something the hardware would do and the spec cannot say what. -/
inductive Fault where
  /-- Raised by ATS and ATE in user mode (R83). Safe: the hardware may ignore the instruction or trap. -/
  | privilegeViolation (mnemonic : String)
  /-- Raised by MVB and MVW when a byte of the access has no memory (R32). Safe. -/
  | unmapped (addr : Word)
  /-- Raised by fetch when no instruction is loaded at pc (R37). Safe. -/
  | fetchUnmapped (pc : Word)
  /-- Raised by fetch when PC_STEP is 4 and pc is not a multiple of 4 (R18). Safe. -/
  | fetchMisaligned (pc : Word)
  /-- The stuck state of a machine that HLT has stopped: it has no step (R21, R156). Safe. -/
  | halted
  deriving DecidableEq, Repr, Inhabited

/-- Why the model has no meaning for an instruction word (R146). -/
inductive Refusal where
  /-- Raised by an arm of `exec` whose instruction has no meaning yet. Safe. -/
  | notModelled (mnemonic : String)
  /-- Raised by decode on an unlisted type code (R58). Safe. -/
  | reservedEncoding
  /-- Raised by decode on a word with a 1 in a bit its instruction does not use (R57). Safe. -/
  | noncanonical
  /-- Raised by Return From Trap, always (R106). Safe. -/
  | rft
  /-- Raised by Timer, always (R107). Safe. -/
  | tmr
  /-- Raised by an instruction that reads r15 as a source operand, where the policy is to refuse it (R19). Safe. -/
  | readR15
  /-- Raised by an instruction with destination r13, where the policy is to refuse it (R20). Safe. -/
  | writeR13
  /-- Raised by an instruction with destination r14, where the policy is to refuse it (R20). Safe. -/
  | writeR14
  /-- Raised by an instruction with destination r15, where the policy is to refuse it (R20). Safe. -/
  | writeR15
  /-- Raised by a store whose bytes overlap a loaded instruction when memory is unified (R43). Safe. -/
  | storeToCode
  deriving DecidableEq, Repr, Inhabited

/-- The machine right after reset (R26, R160, R161): not halted, pc at RESET_PC, no program loaded yet, no data byte
written. The spec leaves every other field free: the zeros are DESIGN CHOICE (log 7), kernel mode is DESIGN CHOICE
(log 8), both unsafe; the trap and timer state 0 is DESIGN CHOICE (log 22); no write to r15 in flight is DESIGN CHOICE
(log 15): the spec gives no reset value of the pipeline of R24. -/
def State.reset : State where
  regs := ⟨0, 0, 0, 0, 0, 0, 0, 0, 0, 0, 0, 0⟩
  cycleCounter := 0
  flags := ⟨false, false, false, false⟩
  special := ⟨false, true⟩
  pc := Config.resetPc
  inFlight := []
  halted := false
  mem := []
  imem := []
  trapTimer := 0
  draws := 0

/-- What a step or a meaning answers. -/
abbrev Result := Host.Outcome State Fault Refusal

end Sys2Proof.Machine
end

