-- ==== Sys2Proof/Machine/Flags.lean ====
section
/-! DEFINITION. Every flag computation of R111 and every condition of R71 and R130, as functions of words and flags. -/

namespace Sys2Proof.Machine

/-- Z: the result is zero (R111). -/
def zeroFlag (r : Word) : Bool := r == 0

/-- N: bit 15 of the result (R111). -/
def negativeFlag (r : Word) : Bool := r.msb

/-- C after ADD: the carry out of bit 15 (R111). -/
def addCarry (a b : Word) : Bool := decide (2 ^ 16 ≤ a.toNat + b.toNat)

/-- O after ADD: A and B have the same bit 15 and the sum has the other (R111). -/
def addOverflow (a b : Word) : Bool := a.msb == b.msb && (a + b).msb != a.msb

/-- O after SUB: A and B differ in bit 15 and the difference's bit 15 is not A's (R111). -/
def subOverflow (a b : Word) : Bool := a.msb != b.msb && (a - b).msb != a.msb

/-- C after SUB under either meaning of SUB_CARRY (R111). -/
def subCarryAs (conv : SubCarry) (a b : Word) : Bool :=
  match conv with
  | .borrow => decide (a.toNat < b.toNat)
  | .notBorrow => decide (b.toNat ≤ a.toNat)

/-- C after SUB: SUB_CARRY is open (log 11). -/
def subCarry (a b : Word) : Bool := subCarryAs Config.subCarry a b

/-- C after an ALU instruction other than ADD and SUB: drawn (R111, log 19). -/
def drawnCarry (a b : Word) (s : State) : Bool := Config.drawnFlag s.draws .carry a b s.flags

/-- O after an ALU instruction other than ADD and SUB: drawn (R111, log 19). -/
def drawnOverflow (a b : Word) (s : State) : Bool := Config.drawnFlag s.draws .overflow a b s.flags

/-- The flags of an ALU result, with the C and O its instruction computes (R111). -/
def resultFlags (r : Word) (c o : Bool) : Flags := ⟨zeroFlag r, negativeFlag r, c, o⟩

/-- JEQ, SEQ: "Z" (R71). -/
def condEq (f : Flags) : Bool := f.z

/-- JNE, SNE: "!Z" (R71). -/
def condNe (f : Flags) : Bool := !f.z

/-- JGT, SGT: "!Z & !N" (R71). -/
def condGt (f : Flags) : Bool := !f.z && !f.n

/-- JGE, SGE: "Z !N", terms side by side are alternatives (R71; log 33). -/
def condGe (f : Flags) : Bool := f.z || !f.n

/-- JLT, SLT: "N" (R71). -/
def condLt (f : Flags) : Bool := f.n

/-- JLE, SLE: "Z N", alternatives (R71; log 33). -/
def condLe (f : Flags) : Bool := f.z || f.n

/-- JOV, SOV: "O" (R71). -/
def condOv (f : Flags) : Bool := f.o

/-- JMP: "Z !Z", alternatives, so always (R71; log 33). -/
def condAlways (f : Flags) : Bool := f.z || !f.z

/-- SCR: "C" (R130). -/
def condCr (f : Flags) : Bool := f.c

end Sys2Proof.Machine
end

