-- ==== Sys2Proof/Machine/Operands.lean ====
section
/-! DEFINITION. Reading registers and operands (R19, R55), the effective address (R31), and writing a destination
register (R20). -/

namespace Sys2Proof.Machine

/-- A read of r13 (R14): a drawn value (log 16). -/
def readCycleCounter (k : ReadSlot) (s : State) : Word := Config.cycleRead s.draws k s.cycleCounter

/-- Bits 3:0 of r14: O, C, N, Z from bit 3 down (R15). -/
def flagBits (f : Flags) : BitVec 4 :=
  BitVec.ofBool f.o ++ BitVec.ofBool f.c ++ BitVec.ofBool f.n ++ BitVec.ofBool f.z

/-- A read of r14 (R19): the four flags in bits 3:0, drawn bits above them (log 17). -/
def readFlagsRegister (k : ReadSlot) (s : State) : Word :=
  Config.r14Upper s.draws k s.flags s.special ++ flagBits s.flags

/-- A read of r15 (R19): the address of this instruction plus PC_READ_OFFSET, which is open (log 14). -/
def readProgramCounter (s : State) : Word := s.pc + Config.pcReadOffset

/-- `x[i]`, register i read as a source operand (R19). The step refuses a read of r15 before it happens, unless the
policy is to run it (`operandRefusal`; logs 14, 41). -/
def readReg (k : ReadSlot) (r : Reg) (s : State) : Word :=
  match r with
  | .r0 => 0
  | .r13 => readCycleCounter k s
  | .r14 => readFlagsRegister k s
  | .r15 => readProgramCounter s
  | .r1 | .r2 | .r3 | .r4 | .r5 | .r6 | .r7 | .r8 | .r9 | .r10 | .r11 | .r12 => s.regs.get r

/-- The operand `ir` selects (R55): the immediate as it is, or the register's value. -/
def operandValue (k : ReadSlot) (b : Operand) (s : State) : Word :=
  match b with
  | .imm v => v
  | .reg r => readReg k r s

/-- The effective address: base register plus immediate, modulo 2^16 (R31). -/
def effectiveAddress (k : ReadSlot) (base : Reg) (imm : Word) (s : State) : Word := readReg k base s + imm

/-- A write to r13: the instruction completes; what the counter then holds is free (R14, R20; log 16). -/
def writeCycleCounter (v : Word) (s : State) : State :=
  { s with cycleCounter := Config.cycleWrite s.draws s.cycleCounter v }

/-- A write to r14: the instruction completes; what the flags and the special bits then hold is free (R20; log 18). -/
def writeFlagsRegister (v : Word) (s : State) : State :=
  { s with
    flags := Config.r14WriteFlags s.draws s.flags s.special v
    special := Config.r14WriteSpecial s.draws s.flags s.special v }

/-- A write to r15: a transfer of control to `v` plus the open offset K, after the open number of further instructions
(R20, R103; log 15). The end of each step lets the writes that are due take effect. -/
def writeProgramCounter (v : Word) (s : State) : State :=
  { s with inFlight := s.inFlight ++ [(Config.r15WriteDelay, v + Config.r15WriteOffset)] }

/-- `x[i] <- v`, register i written as a destination (R20). The step refuses a write of r13, r14 or r15 before it
happens, unless the policy is to run it (`operandRefusal`; logs 15, 16, 18, 41). -/
def writeReg (r : Reg) (v : Word) (s : State) : State :=
  match r with
  | .r0 => s
  | .r13 => writeCycleCounter v s
  | .r14 => writeFlagsRegister v s
  | .r15 => writeProgramCounter v s
  | .r1 | .r2 | .r3 | .r4 | .r5 | .r6 | .r7 | .r8 | .r9 | .r10 | .r11 | .r12 => { s with regs := s.regs.set r v }

/-- The register that the operand selected by `ir` reads, if it is one (R55). -/
def operandRegister : Operand → List Reg
  | .imm _ => []
  | .reg r => [r]

/-- The registers an instruction reads as source operands (R19): both of a store, none that CNT leaves unread (R121). Return
From Trap and Timer are refused before their operands are looked at (R149). -/
def sourceRegisters : Instr → List Reg
  | .hlt | .ats | .ate | .rft | .tmr _ _ _ _ | .movImm _ _ => []
  | .jeq t | .jne t | .jgt t | .jge t | .jlt t | .jle t | .jov t | .jmp t | .int t => operandRegister t
  | .movReg rs _ => [rs]
  | .mvbLoad base _ _ | .mvwLoad base _ _ => [base]
  | .mvbStore rs _ base | .mvwStore rs _ base => [rs, base]
  | .seq b _ | .sne b _ | .sgt b _ | .sge b _ | .slt b _ | .sle b _ | .sov b _ | .scr b _ => operandRegister b
  | .add ra b _ | .sub ra b _ | .rsl ra b _ | .rsa ra b _ | .lsh ra b _ | .exb ra b _ => ra :: operandRegister b
  | .and ra b _ | .orr ra b _ | .xor ra b _ => ra :: operandRegister b
  | .cnt ra _ _ => [ra]

/-- The register an instruction writes as its destination (R20): the destination field of a store is read. -/
def destinationRegister : Instr → Option Reg
  | .hlt | .jeq _ | .jne _ | .jgt _ | .jge _ | .jlt _ | .jle _ | .jov _ | .jmp _ | .ats | .ate | .int _ | .rft => none
  | .tmr _ _ _ _ | .mvbStore _ _ _ | .mvwStore _ _ _ => none
  | .movImm _ rd | .movReg _ rd | .mvbLoad _ _ rd | .mvwLoad _ _ rd => some rd
  | .seq _ rd | .sne _ rd | .sgt _ rd | .sge _ rd | .slt _ rd | .sle _ rd | .sov _ rd | .scr _ rd => some rd
  | .add _ _ rd | .sub _ _ rd | .rsl _ _ rd | .rsa _ _ rd | .lsh _ _ rd | .exb _ _ rd => some rd
  | .and _ _ rd | .orr _ _ rd | .xor _ _ rd | .cnt _ _ rd => some rd

/-- The refusal of a destination register (R20): the spec refuses by the word, a set with a false condition too (R130). -/
def destinationRefusal : Reg → Option Refusal
  | .r13 => some .writeR13
  | .r14 => some .writeR14
  | .r15 => some .writeR15
  | .r0 | .r1 | .r2 | .r3 | .r4 | .r5 | .r6 | .r7 | .r8 | .r9 | .r10 | .r11 | .r12 => none

/-- The refusal of an instruction's register operands (R19, R20, R146), in the order R149 writes them under its
number 7 (deduced, log 38). -/
def operandRefusal (i : Instr) : Option Refusal :=
  if (sourceRegisters i).contains .r15 then some .readR15 else (destinationRegister i).bind destinationRefusal

/-- The same under either policy. -/
def operandRefusalAs (policy : OperandPolicy) (i : Instr) : Option Refusal :=
  match policy with
  | .refuse => operandRefusal i
  | .run => none

/-- Refuse an instruction for its register operands, or let it run: after decoding and before any effect (R149). -/
def whenOperandsAllowed (policy : OperandPolicy) (i : Instr) (run : Result) : Result :=
  match operandRefusalAs policy i with
  | some e => .refused e
  | none => run

/-- What a byte load writes, for each value of BYTE_LOAD_EXT (R36): `old` is the destination's value before. -/
def extendByteAs (ext : ByteLoadExt) (old : Word) (b : Byte) : Word :=
  match ext with
  | .zero => b.zeroExtend 16
  | .sign => b.signExtend 16
  | .keep => old.extractLsb' 8 8 ++ b

/-- What a byte load writes (R36, R87): the spec's default extension (log 4). -/
def extendByte (old : Word) (b : Byte) : Word := extendByteAs Config.byteLoadExt old b

end Sys2Proof.Machine
end

