-- ==== Sys2Proof/Machine/Ops.lean ====
section
/-! DEFINITION. The operations the meanings share: the pc's advance, data memory, the ALU's write-back, giving control to
the operating system, and the two halves of a step around `exec`: fetch and the end of the step. -/

namespace Sys2Proof.Machine

/-- The next instruction in memory: pc + PC_STEP modulo 2^16 (R18). -/
def advance (s : State) : State := { s with pc := s.pc + Config.pcStep }

/-- The byte at a data address (R32): a byte that nothing has written is free (R26; log 9). -/
def readByte (s : State) (a : Word) : Byte := (Cells.get s.mem a.toNat).getD (Config.initialByte a)

/-- Set the byte at a data address (R32). -/
def writeByte (a : Word) (b : Byte) (s : State) : State := { s with mem := Cells.put s.mem a.toNat b }

/-- A word of the bytes at a and a + 1, in either byte order (R33). -/
def joinBytes (big : Bool) (b0 b1 : Byte) : Word := if big then b0 ++ b1 else b1 ++ b0

/-- The byte of a word that lies at a, in either byte order (R33). -/
def byteAtFirst (big : Bool) (v : Word) : Byte := if big then v.extractLsb' 8 8 else v.extractLsb' 0 8

/-- The byte of a word that lies at a + 1, in either byte order (R33). -/
def byteAtSecond (big : Bool) (v : Word) : Byte := if big then v.extractLsb' 0 8 else v.extractLsb' 8 8

/-- The word at a data address, in either byte order (R33). -/
def readWordAs (big : Bool) (s : State) (a : Word) : Word := joinBytes big (readByte s a) (readByte s (a + 1))

/-- Store a word at a data address, in either byte order (R33). -/
def writeWordAs (big : Bool) (a v : Word) (s : State) : State :=
  writeByte (a + 1) (byteAtSecond big v) (writeByte a (byteAtFirst big v) s)

/-- The word at a data address: DATA_BIG_ENDIAN is open (R33; log 10). -/
def readWord (s : State) (a : Word) : Word := readWordAs Config.dataBigEndian s a

/-- Store a word at a data address: DATA_BIG_ENDIAN is open (R33; log 10). -/
def writeWord (a v : Word) (s : State) : State := writeWordAs Config.dataBigEndian a v s

/-- The two addresses of a word access: a and a + 1 modulo 2^16, at any alignment (R33, R35). -/
def wordAddresses (a : Word) : List Word := [a, a + 1]

/-- Answer `ok` if every byte of the access has memory, otherwise the fault for one that has none (R32, R89, R90). Which one is
named when neither byte of a word has memory is not said: the first, DESIGN CHOICE (log 38). -/
def whenMapped (mapped : Word → Bool) (addrs : List Word) (ok : State) : Result :=
  match addrs.find? (fun a => !mapped a) with
  | some a => .fault (.unmapped a)
  | none => .next ok

/-- A loaded instruction occupies the four bytes from its address on, if memory is unified (R43). -/
def overlapsCode (code : InstrMemory) (a : Word) : Bool :=
  [0, 1, 2, 3].any fun k => (Cells.get code (a - BitVec.ofNat 16 k).toNat).isSome

/-- A load's outcome: both bytes need memory (R32, R33). -/
def load (addrs : List Word) (ok : State) : Result := whenMapped Config.memMapped addrs ok

/-- A store's outcome for either value of UNIFIED_MEMORY: a store into loaded code is refused before an unmapped byte is
reported (R43, R149), and neither byte is written when one has no memory (R90). -/
def storeAs (unified : Bool) (mapped : Word → Bool) (code : InstrMemory) (addrs : List Word) (ok : State) : Result :=
  if unified && addrs.any (overlapsCode code) then .refused .storeToCode else whenMapped mapped addrs ok

/-- A store's outcome. -/
def store (s : State) (addrs : List Word) (ok : State) : Result :=
  storeAs Config.unifiedMemory Config.memMapped s.imem addrs ok

/-- The end of every ALU instruction (R110, R111): write the result, write the flags, advance. A write to r14 leaves all
flags free, since what it does to the instruction's own flag update is not said (R20; log 18). -/
def aluWriteBack (rd : Reg) (r : Word) (c o : Bool) (s : State) : State :=
  if rd = .r14 then advance (writeReg rd r s)
  else advance (writeReg rd r { s with flags := resultFlags r c o })

/-- The end of an ALU instruction whose C and O are drawn (R111). -/
def aluWriteBackDrawn (rd : Reg) (r a b : Word) (s : State) : State :=
  aluWriteBack rd r (drawnCarry a b s) (drawnOverflow a b s) s

/-- A jump (R71): to the absolute target if the condition holds, to the next instruction otherwise. -/
def jumpWhen (cond : Bool) (target : Operand) (s : State) : State :=
  if cond then { s with pc := operandValue .first target s } else advance s

/-- What a set instruction does to its destination when the condition is false, for each value of SET_ELSE (R130). -/
def setElseAs (e : SetElse) (rd : Reg) (s : State) : State :=
  match e with
  | .unchanged => s
  | .zero => writeReg rd 0 s

/-- A set instruction (R130): the destination receives the source value if the condition holds; SET_ELSE is the spec's
default (log 5). -/
def setWhen (cond : Bool) (src : Operand) (rd : Reg) (s : State) : State :=
  advance (if cond then writeReg rd (operandValue .first src s) s else setElseAs Config.setElse rd s)

/-- What the operating system sees at an INT of the given type: the arguments are r8, r9 and r10 (R105). -/
def envCall (type : Word) (s : State) : EnvCall where
  type := type
  arg1 := s.regs.r8
  arg2 := s.regs.r9
  arg3 := s.regs.r10
  regs := s.regs
  flags := s.flags
  special := s.special
  cycleCounter := s.cycleCounter
  pc := s.pc
  inFlight := s.inFlight
  mem := s.mem
  imem := s.imem
  trapTimer := s.trapTimer
  draws := s.draws

/-- Store the bytes the operating system has written. -/
def writeBytes (ws : List (Word × Byte)) (m : Memory) : Memory :=
  ws.foldl (fun m w => Cells.put m w.1.toNat w.2) m

/-- The state in which the program resumes: what the operating system left, at the instruction after the INT (R105). -/
def resumeFrom (reply : EnvReply) (s : State) : State :=
  advance
    { s with
      regs := reply.regs
      flags := reply.flags
      special := reply.special
      cycleCounter := reply.cycleCounter
      trapTimer := reply.trapTimer
      mem := writeBytes reply.writes s.mem }

/-- Taking the one exception the spec has (R105, R143): control passes to the operating system and comes back. The spec
describes no entry and no return of its own: this one opaque step stands for the entry, the whole handler and the
return (log 21). -/
def callEnvironment (type : Word) (s : State) : State := resumeFrom (Config.envInt (envCall type s)) s

/-- Place a program's words at consecutive instruction addresses, PC_STEP apart, from a base on (R45). Past
0xFFFF the addresses wrap to 0: DESIGN CHOICE (log 30), unsafe for a program that long. -/
def placeWords (base : Word) : List InstrWord → InstrMemory → InstrMemory
  | [], m => m
  | w :: ws, m => placeWords (base + Config.pcStep) ws (Cells.put m base.toNat w)

/-- The load of a program, given as a list of words, at a load base (R45, R172). -/
def loadProgram (base : Word) (ws : List InstrWord) (s : State) : State := { s with imem := placeWords base ws s.imem }

/-- The start of a run of a program loaded at a base, with RESET_PC = base (R160, R161). -/
def startProgram (base : Word) (ws : List InstrWord) : State := loadProgram base ws { State.reset with pc := base }

/-- pc is no instruction address: only with PC_STEP = 4 (R18). -/
def pcMisaligned (step pc : Word) : Bool := step == 4 && pc.toNat % 4 != 0

/-- The word a step executes (R37), for any PC_STEP: a misaligned pc is reported before an unloaded slot (R149). -/
def fetchAs (step : Word) (s : State) : Except Fault InstrWord :=
  if pcMisaligned step s.pc then .error (.fetchMisaligned s.pc)
  else
    match Cells.get s.imem s.pc.toNat with
    | some w => .ok w
    | none => .error (.fetchUnmapped s.pc)

/-- The word a step executes (R37). -/
def fetch (s : State) : Except Fault InstrWord := fetchAs Config.pcStep s

/-- The refusal that answers a word which is no instruction (R57, R58). -/
def refusalOf : DecodeError → Refusal
  | .reservedEncoding => .reservedEncoding
  | .noncanonical => .noncanonical

/-- The writes to r15 that take effect at the end of this step. -/
def dueWrites (q : List (Nat × Word)) : List (Nat × Word) := q.filter (fun e => e.1 == 0)

/-- The writes to r15 that stay in flight, one instruction nearer. -/
def laterWrites (q : List (Nat × Word)) : List (Nat × Word) :=
  (q.filter (fun e => e.1 != 0)).map (fun e => (e.1 - 1, e.2))

/-- Let the writes to r15 that are due take effect, the newest last (R20, R103; log 15). A halted machine's pc stays at
the HLT (R70). -/
def settleR15 (s : State) : State :=
  if s.halted then s
  else
    { s with
      pc := ((dueWrites s.inFlight).getLast?.map Prod.snd).getD s.pc
      inFlight := laterWrites s.inFlight }

/-- Count the step, so that the next one's free values are its own, and let the cycle counter run on (R14; logs 16, 20). -/
def tick (s : State) : State :=
  { s with cycleCounter := Config.cycleTick s.draws s.cycleCounter, draws := s.draws + 1 }

/-- The end of a step that runs an instruction. -/
def endStep (r : Result) : Result :=
  match r with
  | .next s => .next (tick (settleR15 s))
  | .fault f => .fault f
  | .refused e => .refused e

end Sys2Proof.Machine
end

