-- ==== Sys2Proof/Machine/Alu.lean ====
section
/-! DEFINITION. The ten ALU instructions (R110 to R121): the operation of each on two words, then its meaning over the
shared operand reads and write-back. -/

namespace Sys2Proof.Machine

/-- RSL for either value of SHIFT_OVER (R114): zeros enter at bit 15. -/
def shiftRightLogicalAs (how : ShiftOver) (a b : Word) : Word :=
  if b.toNat ≤ 15 then a >>> b.toNat
  else
    match how with
    | .mod16 => a >>> (b.toNat % 16)
    | .saturate => 0

/-- RSA for either value of SHIFT_OVER (R115): copies of bit 15 enter. -/
def shiftRightArithAs (how : ShiftOver) (a b : Word) : Word :=
  if b.toNat ≤ 15 then a.sshiftRight b.toNat
  else
    match how with
    | .mod16 => a.sshiftRight (b.toNat % 16)
    | .saturate => if a.msb then 0xFFFF else 0

/-- LSH for either value of SHIFT_OVER (R116): zeros enter at bit 0. -/
def shiftLeftAs (how : ShiftOver) (a b : Word) : Word :=
  if b.toNat ≤ 15 then a <<< b.toNat
  else
    match how with
    | .mod16 => a <<< (b.toNat % 16)
    | .saturate => 0

/-- EXB for either value of EXB_OVER (R117): bit B of A, counted from the least significant, as 0 or 1. -/
def extractBitAs (how : ExbOver) (a b : Word) : Word :=
  if b.toNat ≤ 15 then (BitVec.ofBool (a.getLsbD b.toNat)).zeroExtend 16
  else
    match how with
    | .mod16 => (BitVec.ofBool (a.getLsbD (b.toNat % 16))).zeroExtend 16
    | .zero => 0

/-- RSL (R114): SHIFT_OVER is open (log 12). -/
def shiftRightLogical (a b : Word) : Word := shiftRightLogicalAs Config.shiftOver a b

/-- RSA (R115): SHIFT_OVER is open (log 12). -/
def shiftRightArith (a b : Word) : Word := shiftRightArithAs Config.shiftOver a b

/-- LSH (R116): SHIFT_OVER is open (log 12). -/
def shiftLeft (a b : Word) : Word := shiftLeftAs Config.shiftOver a b

/-- EXB (R117): EXB_OVER is open (log 13). -/
def extractBit (a b : Word) : Word := extractBitAs Config.exbOver a b

/-- CNT (R121): the number of bits of A that are 1. -/
def countOnes (a : Word) : Word := BitVec.ofNat 16 ((List.range 16).countP fun i => a.getLsbD i)

/-- ADD (R112). -/
def execAdd (ra : Reg) (b : Operand) (rd : Reg) (s : State) : Result :=
  let x := readReg .first ra s
  let y := operandValue .second b s
  .next (aluWriteBack rd (x + y) (addCarry x y) (addOverflow x y) s)

/-- SUB (R113). -/
def execSub (ra : Reg) (b : Operand) (rd : Reg) (s : State) : Result :=
  let x := readReg .first ra s
  let y := operandValue .second b s
  .next (aluWriteBack rd (x - y) (subCarry x y) (subOverflow x y) s)

/-- RSL (R114). -/
def execRsl (ra : Reg) (b : Operand) (rd : Reg) (s : State) : Result :=
  let x := readReg .first ra s
  let y := operandValue .second b s
  .next (aluWriteBackDrawn rd (shiftRightLogical x y) x y s)

/-- RSA (R115). -/
def execRsa (ra : Reg) (b : Operand) (rd : Reg) (s : State) : Result :=
  let x := readReg .first ra s
  let y := operandValue .second b s
  .next (aluWriteBackDrawn rd (shiftRightArith x y) x y s)

/-- LSH (R116). -/
def execLsh (ra : Reg) (b : Operand) (rd : Reg) (s : State) : Result :=
  let x := readReg .first ra s
  let y := operandValue .second b s
  .next (aluWriteBackDrawn rd (shiftLeft x y) x y s)

/-- EXB (R117). -/
def execExb (ra : Reg) (b : Operand) (rd : Reg) (s : State) : Result :=
  let x := readReg .first ra s
  let y := operandValue .second b s
  .next (aluWriteBackDrawn rd (extractBit x y) x y s)

/-- AND (R118). -/
def execAnd (ra : Reg) (b : Operand) (rd : Reg) (s : State) : Result :=
  let x := readReg .first ra s
  let y := operandValue .second b s
  .next (aluWriteBackDrawn rd (x &&& y) x y s)

/-- ORR (R119). -/
def execOrr (ra : Reg) (b : Operand) (rd : Reg) (s : State) : Result :=
  let x := readReg .first ra s
  let y := operandValue .second b s
  .next (aluWriteBackDrawn rd (x ||| y) x y s)

/-- XOR (R120). -/
def execXor (ra : Reg) (b : Operand) (rd : Reg) (s : State) : Result :=
  let x := readReg .first ra s
  let y := operandValue .second b s
  .next (aluWriteBackDrawn rd (x ^^^ y) x y s)

/-- CNT (R121): reads Reg A only. -/
def execCnt (ra : Reg) (_ : Operand) (rd : Reg) (s : State) : Result :=
  let x := readReg .first ra s
  .next (aluWriteBackDrawn rd (countOnes x) x 0 s)

end Sys2Proof.Machine
end

