-- ==== Sys2Proof/Machine/Atomic.lean ====
section
/-! DEFINITION. ATS and ATE (R80 to R84): kernel mode only. -/

namespace Sys2Proof.Machine

/-- Run a kernel-mode instruction: in user mode it is the privilege fault (R83). -/
def whenKernel (mnemonic : String) (s ok : State) : Result :=
  if s.special.kernel then .next ok else .fault (.privilegeViolation mnemonic)

/-- ATS (R80): sets the Atomic bit, which is a bit and not a count (R84). -/
def execAts (s : State) : Result :=
  whenKernel "ATS" s (advance { s with special := { s.special with atomic := true } })

/-- ATE (R81): resets the Atomic bit. -/
def execAte (s : State) : Result :=
  whenKernel "ATE" s (advance { s with special := { s.special with atomic := false } })

end Sys2Proof.Machine
end

