-- ==== Sys2Proof/Machine/Halt.lean ====
section
/-! DEFINITION. HLT (R70). -/

namespace Sys2Proof.Machine

/-- HLT (R70): the stop mark is set, pc stays at the HLT, nothing else changes; in either mode. -/
def execHlt (s : State) : Result := .next { s with halted := true }

end Sys2Proof.Machine
end

