-- ==== Sys2Proof/Machine/Jump.lean ====
section
/-! DEFINITION. The eight jumps (R71 to R79): each its own condition over the shared `jumpWhen`. -/

namespace Sys2Proof.Machine

/-- JEQ (R72). -/
def execJeq (target : Operand) (s : State) : Result := .next (jumpWhen (condEq s.flags) target s)

/-- JNE (R73). -/
def execJne (target : Operand) (s : State) : Result := .next (jumpWhen (condNe s.flags) target s)

/-- JGT (R74). -/
def execJgt (target : Operand) (s : State) : Result := .next (jumpWhen (condGt s.flags) target s)

/-- JGE (R75). -/
def execJge (target : Operand) (s : State) : Result := .next (jumpWhen (condGe s.flags) target s)

/-- JLT (R76). -/
def execJlt (target : Operand) (s : State) : Result := .next (jumpWhen (condLt s.flags) target s)

/-- JLE (R77). -/
def execJle (target : Operand) (s : State) : Result := .next (jumpWhen (condLe s.flags) target s)

/-- JOV (R78). -/
def execJov (target : Operand) (s : State) : Result := .next (jumpWhen (condOv s.flags) target s)

/-- JMP (R79). -/
def execJmp (target : Operand) (s : State) : Result := .next (jumpWhen (condAlways s.flags) target s)

end Sys2Proof.Machine
end

