-- ==== Sys2Proof/Machine/Move.lean ====
section
/-! DEFINITION. The six Move instructions (R85 to R90, R92). No Move writes a flag. -/

namespace Sys2Proof.Machine

/-- MOV, immediate to register (R85). -/
def execMovImm (imm : Word) (rd : Reg) (s : State) : Result := .next (advance (writeReg rd imm s))

/-- MOV, register to register (R86). -/
def execMovReg (rs rd : Reg) (s : State) : Result := .next (advance (writeReg rd (readReg .first rs s) s))

/-- MVB, byte load (R87). -/
def execMvbLoad (base : Reg) (imm : Word) (rd : Reg) (s : State) : Result :=
  load [effectiveAddress .first base imm s]
    (advance (writeReg rd (extendByte (readReg .second rd s) (readByte s (effectiveAddress .first base imm s))) s))

/-- MVB, byte store (R88): the base register is in the destination field, read and not written. -/
def execMvbStore (rs : Reg) (imm : Word) (base : Reg) (s : State) : Result :=
  store s [effectiveAddress .second base imm s]
    (advance (writeByte (effectiveAddress .second base imm s) ((readReg .first rs s).extractLsb' 0 8) s))

/-- MVW, word load (R89). -/
def execMvwLoad (base : Reg) (imm : Word) (rd : Reg) (s : State) : Result :=
  load (wordAddresses (effectiveAddress .first base imm s))
    (advance (writeReg rd (readWord s (effectiveAddress .first base imm s)) s))

/-- MVW, word store (R90): the base register is in the destination field, read and not written. -/
def execMvwStore (rs : Reg) (imm : Word) (base : Reg) (s : State) : Result :=
  store s (wordAddresses (effectiveAddress .second base imm s))
    (advance (writeWord (effectiveAddress .second base imm s) (readReg .first rs s) s))

end Sys2Proof.Machine
end

