-- ==== Sys2Proof/Machine/Set.lean ====
section
/-! DEFINITION. The eight conditional sets (R130 to R138): each its own condition over the shared `setWhen`. -/

namespace Sys2Proof.Machine

/-- SEQ (R131). -/
def execSeq (src : Operand) (rd : Reg) (s : State) : Result := .next (setWhen (condEq s.flags) src rd s)

/-- SNE (R132). -/
def execSne (src : Operand) (rd : Reg) (s : State) : Result := .next (setWhen (condNe s.flags) src rd s)

/-- SGT (R133). -/
def execSgt (src : Operand) (rd : Reg) (s : State) : Result := .next (setWhen (condGt s.flags) src rd s)

/-- SGE (R134). -/
def execSge (src : Operand) (rd : Reg) (s : State) : Result := .next (setWhen (condGe s.flags) src rd s)

/-- SLT (R135). -/
def execSlt (src : Operand) (rd : Reg) (s : State) : Result := .next (setWhen (condLt s.flags) src rd s)

/-- SLE (R136). -/
def execSle (src : Operand) (rd : Reg) (s : State) : Result := .next (setWhen (condLe s.flags) src rd s)

/-- SOV (R137). -/
def execSov (src : Operand) (rd : Reg) (s : State) : Result := .next (setWhen (condOv s.flags) src rd s)

/-- SCR (R138). -/
def execScr (src : Operand) (rd : Reg) (s : State) : Result := .next (setWhen (condCr s.flags) src rd s)

end Sys2Proof.Machine
end

