-- ==== Sys2Proof/Machine/System.lean ====
section
/-! DEFINITION. INT, Return From Trap and Timer (R105 to R107). -/

namespace Sys2Proof.Machine

/-- INT (R105): control passes to the operating system with the type and r8 to r10; the program resumes at the next
instruction. ENV_INT is the opaque `Config.envInt` (log 21). -/
def execInt (type : Operand) (s : State) : Result := .next (callEnvironment (operandValue .first type s) s)

/-- Return From Trap (R106): the spec gives it no effect and has the model refuse it (log 23). -/
def execRft (_ : State) : Result := .refused .rft

/-- Timer (R107): the spec gives it no effect and has the model refuse it (log 23). -/
def execTmr (_ : Nat) (_ : Bool) (_ : Reg) (_ : Word) (_ : State) : Result := .refused .tmr

end Sys2Proof.Machine
end

