-- ==== Sys2Proof/Machine/Dispatch.lean ====
section
/-! DEFINITION. The meaning of each instruction, one arm a constructor. -/

namespace Sys2Proof.Machine

def exec (i : Instr) (s : State) : Host.Outcome State Fault Refusal :=
  match i with
  | .hlt => Sys2Proof.Machine.execHlt s
  | .jeq target => Sys2Proof.Machine.execJeq target s
  | .jne target => Sys2Proof.Machine.execJne target s
  | .jgt target => Sys2Proof.Machine.execJgt target s
  | .jge target => Sys2Proof.Machine.execJge target s
  | .jlt target => Sys2Proof.Machine.execJlt target s
  | .jle target => Sys2Proof.Machine.execJle target s
  | .jov target => Sys2Proof.Machine.execJov target s
  | .jmp target => Sys2Proof.Machine.execJmp target s
  | .ats => Sys2Proof.Machine.execAts s
  | .ate => Sys2Proof.Machine.execAte s
  | .int type => Sys2Proof.Machine.execInt type s
  | .rft => Sys2Proof.Machine.execRft s
  | .tmr ty ir ra imm => Sys2Proof.Machine.execTmr ty ir ra imm s
  | .movImm imm rd => Sys2Proof.Machine.execMovImm imm rd s
  | .movReg rs rd => Sys2Proof.Machine.execMovReg rs rd s
  | .mvbLoad base imm rd => Sys2Proof.Machine.execMvbLoad base imm rd s
  | .mvbStore rs imm base => Sys2Proof.Machine.execMvbStore rs imm base s
  | .mvwLoad base imm rd => Sys2Proof.Machine.execMvwLoad base imm rd s
  | .mvwStore rs imm base => Sys2Proof.Machine.execMvwStore rs imm base s
  | .seq src rd => Sys2Proof.Machine.execSeq src rd s
  | .sne src rd => Sys2Proof.Machine.execSne src rd s
  | .sgt src rd => Sys2Proof.Machine.execSgt src rd s
  | .sge src rd => Sys2Proof.Machine.execSge src rd s
  | .slt src rd => Sys2Proof.Machine.execSlt src rd s
  | .sle src rd => Sys2Proof.Machine.execSle src rd s
  | .sov src rd => Sys2Proof.Machine.execSov src rd s
  | .scr src rd => Sys2Proof.Machine.execScr src rd s
  | .add ra b rd => Sys2Proof.Machine.execAdd ra b rd s
  | .sub ra b rd => Sys2Proof.Machine.execSub ra b rd s
  | .rsl ra b rd => Sys2Proof.Machine.execRsl ra b rd s
  | .rsa ra b rd => Sys2Proof.Machine.execRsa ra b rd s
  | .lsh ra b rd => Sys2Proof.Machine.execLsh ra b rd s
  | .exb ra b rd => Sys2Proof.Machine.execExb ra b rd s
  | .and ra b rd => Sys2Proof.Machine.execAnd ra b rd s
  | .orr ra b rd => Sys2Proof.Machine.execOrr ra b rd s
  | .xor ra b rd => Sys2Proof.Machine.execXor ra b rd s
  | .cnt ra b rd => Sys2Proof.Machine.execCnt ra b rd s

end Sys2Proof.Machine
end

