-- ==== Sys2Proof/Machine/Step.lean ====
section
/-! DEFINITION. One step: fetch, decode, execute, end the step; and how a program's word comes to stand where the next
step fetches. -/

namespace Sys2Proof.Machine

/-- One step (spec/00_scope.md section 5.3), for either operand policy. A halted machine has none (R21); a fetch that
fails, a word that is no instruction, a refused register operand, and the instruction's own outcome are reported in the
order of R149. -/
def stepAs (policy : OperandPolicy) (s : State) : Host.Outcome State Fault Refusal :=
  if s.halted then .fault .halted
  else
    match fetch s with
    | .error f => .fault f
    | .ok w =>
      match decode w with
      | .error e => .refused (refusalOf e)
      | .ok i => whenOperandsAllowed policy i (endStep (exec i s))

/-- One step of the machine: register operands are refused as the spec decides (R19, R20). -/
def step (s : State) : Host.Outcome State Fault Refusal := stepAs Config.operandPolicy s

/-- Load one instruction word where the next step fetches (log 30): the program load over USB serial is outside the
machine (R45, R172). A loaded machine starts to run, so the stop mark is cleared (R21). -/
def State.withFetchWord (s : State) (nbits w : Nat) : State :=
  { s with imem := Cells.put s.imem s.pc.toNat (tableWord nbits w), halted := false }

end Sys2Proof.Machine
end

