-- ==== Sys2Proof/Laws/State.lean ====
section
/-! SUPPORT. One lemma for each field of State under each update of it, and the register file's reads after writes. -/

namespace Sys2Proof.Machine

@[simp] theorem advance_regs (s : State) : (advance s).regs = s.regs := rfl
@[simp] theorem advance_cycleCounter (s : State) : (advance s).cycleCounter = s.cycleCounter := rfl
@[simp] theorem advance_flags (s : State) : (advance s).flags = s.flags := rfl
@[simp] theorem advance_special (s : State) : (advance s).special = s.special := rfl
@[simp] theorem advance_pc (s : State) : (advance s).pc = s.pc + Config.pcStep := rfl
@[simp] theorem advance_inFlight (s : State) : (advance s).inFlight = s.inFlight := rfl
@[simp] theorem advance_halted (s : State) : (advance s).halted = s.halted := rfl
@[simp] theorem advance_mem (s : State) : (advance s).mem = s.mem := rfl
@[simp] theorem advance_imem (s : State) : (advance s).imem = s.imem := rfl
@[simp] theorem advance_trapTimer (s : State) : (advance s).trapTimer = s.trapTimer := rfl
@[simp] theorem advance_draws (s : State) : (advance s).draws = s.draws := rfl

@[simp] theorem writeByte_regs (a : Word) (b : Byte) (s : State) : (writeByte a b s).regs = s.regs := rfl
@[simp] theorem writeByte_cycleCounter (a : Word) (b : Byte) (s : State) : (writeByte a b s).cycleCounter = s.cycleCounter := rfl
@[simp] theorem writeByte_flags (a : Word) (b : Byte) (s : State) : (writeByte a b s).flags = s.flags := rfl
@[simp] theorem writeByte_special (a : Word) (b : Byte) (s : State) : (writeByte a b s).special = s.special := rfl
@[simp] theorem writeByte_pc (a : Word) (b : Byte) (s : State) : (writeByte a b s).pc = s.pc := rfl
@[simp] theorem writeByte_inFlight (a : Word) (b : Byte) (s : State) : (writeByte a b s).inFlight = s.inFlight := rfl
@[simp] theorem writeByte_halted (a : Word) (b : Byte) (s : State) : (writeByte a b s).halted = s.halted := rfl
@[simp] theorem writeByte_mem (a : Word) (b : Byte) (s : State) : (writeByte a b s).mem = Cells.put s.mem a.toNat b := rfl
@[simp] theorem writeByte_imem (a : Word) (b : Byte) (s : State) : (writeByte a b s).imem = s.imem := rfl
@[simp] theorem writeByte_trapTimer (a : Word) (b : Byte) (s : State) : (writeByte a b s).trapTimer = s.trapTimer := rfl
@[simp] theorem writeByte_draws (a : Word) (b : Byte) (s : State) : (writeByte a b s).draws = s.draws := rfl

@[simp] theorem writeCycleCounter_regs (v : Word) (s : State) : (writeCycleCounter v s).regs = s.regs := rfl
@[simp] theorem writeCycleCounter_cycleCounter (v : Word) (s : State) : (writeCycleCounter v s).cycleCounter = Config.cycleWrite s.draws s.cycleCounter v := rfl
@[simp] theorem writeCycleCounter_flags (v : Word) (s : State) : (writeCycleCounter v s).flags = s.flags := rfl
@[simp] theorem writeCycleCounter_special (v : Word) (s : State) : (writeCycleCounter v s).special = s.special := rfl
@[simp] theorem writeCycleCounter_pc (v : Word) (s : State) : (writeCycleCounter v s).pc = s.pc := rfl
@[simp] theorem writeCycleCounter_inFlight (v : Word) (s : State) : (writeCycleCounter v s).inFlight = s.inFlight := rfl
@[simp] theorem writeCycleCounter_halted (v : Word) (s : State) : (writeCycleCounter v s).halted = s.halted := rfl
@[simp] theorem writeCycleCounter_mem (v : Word) (s : State) : (writeCycleCounter v s).mem = s.mem := rfl
@[simp] theorem writeCycleCounter_imem (v : Word) (s : State) : (writeCycleCounter v s).imem = s.imem := rfl
@[simp] theorem writeCycleCounter_trapTimer (v : Word) (s : State) : (writeCycleCounter v s).trapTimer = s.trapTimer := rfl
@[simp] theorem writeCycleCounter_draws (v : Word) (s : State) : (writeCycleCounter v s).draws = s.draws := rfl

@[simp] theorem writeFlagsRegister_regs (v : Word) (s : State) : (writeFlagsRegister v s).regs = s.regs := rfl
@[simp] theorem writeFlagsRegister_cycleCounter (v : Word) (s : State) : (writeFlagsRegister v s).cycleCounter = s.cycleCounter := rfl
@[simp] theorem writeFlagsRegister_flags (v : Word) (s : State) : (writeFlagsRegister v s).flags = Config.r14WriteFlags s.draws s.flags s.special v := rfl
@[simp] theorem writeFlagsRegister_special (v : Word) (s : State) : (writeFlagsRegister v s).special = Config.r14WriteSpecial s.draws s.flags s.special v := rfl
@[simp] theorem writeFlagsRegister_pc (v : Word) (s : State) : (writeFlagsRegister v s).pc = s.pc := rfl
@[simp] theorem writeFlagsRegister_inFlight (v : Word) (s : State) : (writeFlagsRegister v s).inFlight = s.inFlight := rfl
@[simp] theorem writeFlagsRegister_halted (v : Word) (s : State) : (writeFlagsRegister v s).halted = s.halted := rfl
@[simp] theorem writeFlagsRegister_mem (v : Word) (s : State) : (writeFlagsRegister v s).mem = s.mem := rfl
@[simp] theorem writeFlagsRegister_imem (v : Word) (s : State) : (writeFlagsRegister v s).imem = s.imem := rfl
@[simp] theorem writeFlagsRegister_trapTimer (v : Word) (s : State) : (writeFlagsRegister v s).trapTimer = s.trapTimer := rfl
@[simp] theorem writeFlagsRegister_draws (v : Word) (s : State) : (writeFlagsRegister v s).draws = s.draws := rfl

@[simp] theorem writeProgramCounter_regs (v : Word) (s : State) : (writeProgramCounter v s).regs = s.regs := rfl
@[simp] theorem writeProgramCounter_cycleCounter (v : Word) (s : State) : (writeProgramCounter v s).cycleCounter = s.cycleCounter := rfl
@[simp] theorem writeProgramCounter_flags (v : Word) (s : State) : (writeProgramCounter v s).flags = s.flags := rfl
@[simp] theorem writeProgramCounter_special (v : Word) (s : State) : (writeProgramCounter v s).special = s.special := rfl
@[simp] theorem writeProgramCounter_pc (v : Word) (s : State) : (writeProgramCounter v s).pc = s.pc := rfl
@[simp] theorem writeProgramCounter_inFlight (v : Word) (s : State) : (writeProgramCounter v s).inFlight = s.inFlight ++ [(Config.r15WriteDelay, v + Config.r15WriteOffset)] := rfl
@[simp] theorem writeProgramCounter_halted (v : Word) (s : State) : (writeProgramCounter v s).halted = s.halted := rfl
@[simp] theorem writeProgramCounter_mem (v : Word) (s : State) : (writeProgramCounter v s).mem = s.mem := rfl
@[simp] theorem writeProgramCounter_imem (v : Word) (s : State) : (writeProgramCounter v s).imem = s.imem := rfl
@[simp] theorem writeProgramCounter_trapTimer (v : Word) (s : State) : (writeProgramCounter v s).trapTimer = s.trapTimer := rfl
@[simp] theorem writeProgramCounter_draws (v : Word) (s : State) : (writeProgramCounter v s).draws = s.draws := rfl

@[simp] theorem tick_regs (s : State) : (tick s).regs = s.regs := rfl
@[simp] theorem tick_cycleCounter (s : State) : (tick s).cycleCounter = Config.cycleTick s.draws s.cycleCounter := rfl
@[simp] theorem tick_flags (s : State) : (tick s).flags = s.flags := rfl
@[simp] theorem tick_special (s : State) : (tick s).special = s.special := rfl
@[simp] theorem tick_pc (s : State) : (tick s).pc = s.pc := rfl
@[simp] theorem tick_inFlight (s : State) : (tick s).inFlight = s.inFlight := rfl
@[simp] theorem tick_halted (s : State) : (tick s).halted = s.halted := rfl
@[simp] theorem tick_mem (s : State) : (tick s).mem = s.mem := rfl
@[simp] theorem tick_imem (s : State) : (tick s).imem = s.imem := rfl
@[simp] theorem tick_trapTimer (s : State) : (tick s).trapTimer = s.trapTimer := rfl
@[simp] theorem tick_draws (s : State) : (tick s).draws = s.draws + 1 := rfl

@[simp] theorem resumeFrom_regs (e : EnvReply) (s : State) : (resumeFrom e s).regs = e.regs := rfl
@[simp] theorem resumeFrom_cycleCounter (e : EnvReply) (s : State) : (resumeFrom e s).cycleCounter = e.cycleCounter := rfl
@[simp] theorem resumeFrom_flags (e : EnvReply) (s : State) : (resumeFrom e s).flags = e.flags := rfl
@[simp] theorem resumeFrom_special (e : EnvReply) (s : State) : (resumeFrom e s).special = e.special := rfl
@[simp] theorem resumeFrom_pc (e : EnvReply) (s : State) : (resumeFrom e s).pc = s.pc + Config.pcStep := rfl
@[simp] theorem resumeFrom_inFlight (e : EnvReply) (s : State) : (resumeFrom e s).inFlight = s.inFlight := rfl
@[simp] theorem resumeFrom_halted (e : EnvReply) (s : State) : (resumeFrom e s).halted = s.halted := rfl
@[simp] theorem resumeFrom_mem (e : EnvReply) (s : State) : (resumeFrom e s).mem = writeBytes e.writes s.mem := rfl
@[simp] theorem resumeFrom_imem (e : EnvReply) (s : State) : (resumeFrom e s).imem = s.imem := rfl
@[simp] theorem resumeFrom_trapTimer (e : EnvReply) (s : State) : (resumeFrom e s).trapTimer = e.trapTimer := rfl
@[simp] theorem resumeFrom_draws (e : EnvReply) (s : State) : (resumeFrom e s).draws = s.draws := rfl

@[simp] theorem loadProgram_regs (base : Word) (ws : List InstrWord) (s : State) : (loadProgram base ws s).regs = s.regs := rfl
@[simp] theorem loadProgram_cycleCounter (base : Word) (ws : List InstrWord) (s : State) : (loadProgram base ws s).cycleCounter = s.cycleCounter := rfl
@[simp] theorem loadProgram_flags (base : Word) (ws : List InstrWord) (s : State) : (loadProgram base ws s).flags = s.flags := rfl
@[simp] theorem loadProgram_special (base : Word) (ws : List InstrWord) (s : State) : (loadProgram base ws s).special = s.special := rfl
@[simp] theorem loadProgram_pc (base : Word) (ws : List InstrWord) (s : State) : (loadProgram base ws s).pc = s.pc := rfl
@[simp] theorem loadProgram_inFlight (base : Word) (ws : List InstrWord) (s : State) : (loadProgram base ws s).inFlight = s.inFlight := rfl
@[simp] theorem loadProgram_halted (base : Word) (ws : List InstrWord) (s : State) : (loadProgram base ws s).halted = s.halted := rfl
@[simp] theorem loadProgram_mem (base : Word) (ws : List InstrWord) (s : State) : (loadProgram base ws s).mem = s.mem := rfl
@[simp] theorem loadProgram_trapTimer (base : Word) (ws : List InstrWord) (s : State) : (loadProgram base ws s).trapTimer = s.trapTimer := rfl
@[simp] theorem loadProgram_draws (base : Word) (ws : List InstrWord) (s : State) : (loadProgram base ws s).draws = s.draws := rfl

/-- The plain registers, the ones the register file stores (R12, R13). -/
def Stored (r : Reg) : Prop := r ≠ .r0 ∧ r ≠ .r13 ∧ r ≠ .r14 ∧ r ≠ .r15

theorem RegFile.get_set_same (f : RegFile) (r : Reg) (v : Word) (h : Stored r) : (f.set r v).get r = v := by
  cases r <;> first | rfl | simp [Stored] at h

@[simp] theorem RegFile.get_set_other (f : RegFile) (r q : Reg) (v : Word) (h : q ≠ r) :
    (f.set r v).get q = f.get q := by
  cases r <;> cases q <;> first | rfl | exact absurd rfl h

/-- Two register files are equal when every register reads alike. -/
theorem RegFile.ext_get (f g : RegFile) (h : ∀ r, f.get r = g.get r) : f = g := by
  cases f
  cases g
  have a1 := h .r1
  have a2 := h .r2
  have a3 := h .r3
  have a4 := h .r4
  have a5 := h .r5
  have a6 := h .r6
  have a7 := h .r7
  have a8 := h .r8
  have a9 := h .r9
  have a10 := h .r10
  have a11 := h .r11
  have a12 := h .r12
  simp_all [RegFile.get]

/-- A write to the zero register is discarded (R11). -/
@[simp] theorem writeReg_zero (v : Word) (s : State) : writeReg .r0 v s = s := rfl

/-- A write to a plain register is a write of the register file (R20). -/
theorem writeReg_stored (r : Reg) (v : Word) (s : State) (h : Stored r) :
    writeReg r v s = { s with regs := s.regs.set r v } := by
  cases r <;> first | rfl | simp [Stored] at h

@[simp] theorem writeReg_halted (r : Reg) (v : Word) (s : State) : (writeReg r v s).halted = s.halted := by
  cases r <;> rfl
@[simp] theorem writeReg_mem (r : Reg) (v : Word) (s : State) : (writeReg r v s).mem = s.mem := by
  cases r <;> rfl
@[simp] theorem writeReg_imem (r : Reg) (v : Word) (s : State) : (writeReg r v s).imem = s.imem := by
  cases r <;> rfl
@[simp] theorem writeReg_trapTimer (r : Reg) (v : Word) (s : State) : (writeReg r v s).trapTimer = s.trapTimer := by
  cases r <;> rfl
@[simp] theorem writeReg_draws (r : Reg) (v : Word) (s : State) : (writeReg r v s).draws = s.draws := by
  cases r <;> rfl
@[simp] theorem writeReg_pc (r : Reg) (v : Word) (s : State) : (writeReg r v s).pc = s.pc := by
  cases r <;> rfl

/-- No register but the one written reads otherwise (R20). -/
@[simp] theorem writeReg_regs_other (r q : Reg) (v : Word) (s : State) (h : q ≠ r) :
    (writeReg r v s).regs.get q = s.regs.get q := by
  cases r <;> first | rfl | exact RegFile.get_set_other _ _ _ _ h

/-- A plain register reads what was written to it (R12, R20). -/
theorem writeReg_regs_same (r : Reg) (v : Word) (s : State) (h : Stored r) :
    (writeReg r v s).regs.get r = v := by
  rw [writeReg_stored r v s h]
  exact RegFile.get_set_same _ _ _ h

/-- Only a write to r14 touches the flags and the special bits (R20). -/
theorem writeReg_flags (r : Reg) (v : Word) (s : State) (h : r ≠ .r14) : (writeReg r v s).flags = s.flags := by
  cases r <;> first | rfl | exact absurd rfl h

theorem writeReg_special (r : Reg) (v : Word) (s : State) (h : r ≠ .r14) :
    (writeReg r v s).special = s.special := by
  cases r <;> first | rfl | exact absurd rfl h

/-- Only a write to r13 touches the cycle counter (R20). -/
theorem writeReg_cycleCounter (r : Reg) (v : Word) (s : State) (h : r ≠ .r13) :
    (writeReg r v s).cycleCounter = s.cycleCounter := by
  cases r <;> first | rfl | exact absurd rfl h

/-- Only a write to r15 puts a write in flight (R20). -/
theorem writeReg_inFlight (r : Reg) (v : Word) (s : State) :
    (writeReg r v s).inFlight =
      if r = .r15 then s.inFlight ++ [(Config.r15WriteDelay, v + Config.r15WriteOffset)] else s.inFlight := by
  cases r <;> rfl

/-- A plain register reads as stored (R19). -/
theorem readReg_stored (k : ReadSlot) (r : Reg) (s : State) (h : Stored r) : readReg k r s = s.regs.get r := by
  cases r <;> first | rfl | simp [Stored] at h

@[simp] theorem readReg_zero (k : ReadSlot) (s : State) : readReg k .r0 s = 0 := rfl

@[simp] theorem operandValue_imm (k : ReadSlot) (v : Word) (s : State) : operandValue k (.imm v) s = v := rfl

@[simp] theorem operandValue_reg (k : ReadSlot) (r : Reg) (s : State) : operandValue k (.reg r) s = readReg k r s := rfl

end Sys2Proof.Machine
end

