-- ==== Sys2Proof/Machine/Pseudo.lean ====
section
/-! DEFINITION. The ten pseudo-instructions (R61) as expansions into machine instructions, and the five assembler forms of
the ALU instructions (R125). They have no encoding of their own: a machine word is always one of the expansions'. -/

namespace Sys2Proof

/-- The five ALU assembler forms of R125. -/
inductive AluForm where
  /-- OP r1 r2 r3. -/
  | regRegDest (a b d : Reg)
  /-- OP r1 $imm r2. -/
  | regImmDest (a : Reg) (v : Word) (d : Reg)
  /-- OP r1 r2. -/
  | regReg (a b : Reg)
  /-- OP r1 $imm. -/
  | regImm (a : Reg) (v : Word)
  /-- OP $imm r1. -/
  | immReg (v : Word) (a : Reg)
  deriving DecidableEq, Repr, Inhabited

/-- Reg A, the second operand and the destination of an ALU form (R125); the fifth form is the same word as the fourth
(conflict C4). -/
def AluForm.fields : AluForm → Reg × Operand × Reg
  | .regRegDest a b d => (a, .reg b, d)
  | .regImmDest a v d => (a, .imm v, d)
  | .regReg a b => (a, .reg b, b)
  | .regImm a v => (a, .imm v, a)
  | .immReg v a => (a, .imm v, a)

/-- The machine instruction of an ALU mnemonic in one of its forms. -/
def assembleAlu (op : Reg → Operand → Reg → Instr) (form : AluForm) : Instr :=
  op form.fields.1 form.fields.2.1 form.fields.2.2

/-- The pseudo-instructions (R61). -/
inductive Pseudo where
  | nop
  | psb (value : Operand)
  | psw (value : Operand)
  | ppb (rd : Reg)
  | ppw (rd : Reg)
  | cal (target : Operand)
  | ret
  | not (rs rd : Reg)
  | cmp (q1 q2 : Operand)
  | tst (q1 q2 : Operand)
  deriving DecidableEq, Repr, Inhabited

/-- The destination of CMP and TST for either value of CMP_TST_DEST (R123, R124). -/
def compareDestAs (dest : CmpTstDest) (r : Reg) : Reg :=
  match dest with
  | .literal => r
  | .r0 => .r0

/-- CMP or TST, "formatted like the ALU instructions": the two-operand forms with a register among them (R123, R124). -/
def expandCompareAs (dest : CmpTstDest) (op : Reg → Operand → Reg → Instr) : Operand → Operand → Option Instr
  | .reg a, .reg b => some (op a (.reg b) (compareDestAs dest b))
  | .reg a, .imm v => some (op a (.imm v) (compareDestAs dest a))
  | .imm v, .reg a => some (op a (.imm v) (compareDestAs dest a))
  | .imm _, .imm _ => none

/-- The machine instructions a pseudo-instruction stands for, for either value of CMP_TST_DEST; none where the source
documents no expansion, a push of an immediate (R95, R96, D38) or a comparison of two immediates. -/
def Pseudo.expandAs (dest : CmpTstDest) : Pseudo → Option (List Instr)
  | .nop => some [.movReg .r0 .r0]
  | .psb (.reg rs) => some [.sub .r12 (.imm 0x8) .r12, .mvbStore rs 0 .r12]
  | .psb (.imm _) => none
  | .psw (.reg rs) => some [.sub .r12 (.imm 0x10) .r12, .mvwStore rs 0 .r12]
  | .psw (.imm _) => none
  | .ppb rd => some [.mvbLoad .r12 0 rd, .add .r12 (.imm 0x8) .r12]
  | .ppw rd => some [.mvwLoad .r12 0 rd, .add .r12 (.imm 0x10) .r12]
  | .cal t => some [.sub .r12 (.imm 0x10) .r12, .mvwStore .r15 0 .r12, .jmp t]
  | .ret => some [.mvwLoad .r12 0 .r15, .add .r12 (.imm 0x10) .r12]
  | .not rs rd => some [.xor rs (.imm 0xFFFF) rd]
  | .cmp q1 q2 => (expandCompareAs dest .sub q1 q2).map (fun i => [i])
  | .tst q1 q2 => (expandCompareAs dest .and q1 q2).map (fun i => [i])

/-- The machine instructions a pseudo-instruction stands for, with the spec's default of CMP_TST_DEST (log 37). -/
def Pseudo.expand (p : Pseudo) : Option (List Instr) := p.expandAs Config.cmpTstDest

/-- The machine words a pseudo-instruction stands for. -/
def Pseudo.words (p : Pseudo) : Option (List InstrWord) := p.expand.map (fun is => is.map encode)

end Sys2Proof
end

