-- ==== Sys2Proof/Safety.lean ====
section
/-! DEFINITION. What claims say of a run: a safe step, a normal end (R171), and the invariant of the state. -/

namespace Sys2Proof.Machine

/-- The step neither faults nor is refused (R146). -/
def StepSafe (s : State) : Prop := ∃ t, step s = .next t

/-- The one normal end of a run (R171): some number of safe steps reaches a halted state. -/
def EndsNormally (s t : State) : Prop := ∃ n, core.run n s = .next t ∧ t.halted = true

/-- The states that safe steps lead to. -/
inductive Reaches (s : State) : State → Prop
  | here : Reaches s s
  | next {t u : State} : Reaches s t → step t = .next u → Reaches s u

/-- Writes to r15 in flight between steps (log 15): each is due within the write's delay, and a later write is due
later, so that no two are due at once. -/
def inFlightOrdered (q : List (Nat × Word)) : Prop :=
  (∀ e ∈ q, e.1 < Config.r15WriteDelay) ∧ q.Pairwise (fun a b => a.1 < b.1)

/-- What holds of the state between steps: both memories are in their canonical form, and the writes to r15 in flight are
ordered. -/
def Inv (s : State) : Prop :=
  Memory.wf s.mem = true ∧ Cells.wf s.imem = true ∧ inFlightOrdered s.inFlight

end Sys2Proof.Machine
end

