-- ==== Sys2Proof/Certificates/Slice0/Obligations.lean ====
section
/-! DEFINITION. The statements for the provers, and the vocabulary they are written in. -/

namespace Sys2Proof.Claims

open Sys2Proof.Machine

/-- Every byte of data memory outside the listed addresses reads as before. -/
def SameBytesOutside (addrs : List Word) (s t : State) : Prop :=
  ∀ a : Word, a ∉ addrs → readByte t a = readByte s a

/-- Every byte of data memory reads as before. -/
def SameBytes (s t : State) : Prop := ∀ a : Word, readByte t a = readByte s a

/-- Instruction memory, the stop mark, the trap and timer state and the model's step number are as before. -/
def SameRest (s t : State) : Prop :=
  t.imem = s.imem ∧ t.halted = s.halted ∧ t.trapTimer = s.trapTimer ∧ t.draws = s.draws

/-- Register `rd` and nothing else of the registers, special bits and cycle counter was written, with the value `v`
(R20). A plain register then holds `v`; r0 discards it. A write to r13, r14 or r15 the step refuses; `exec`, which is what the
instruction does where the policy is to run it, leaves after a write to r13 the cycle counter free and after one to r14 the
flags and special bits (the model's choice, logs 16 and 18), and puts a write to r15 in flight to `v` plus the open offset,
after the open delay (the model's choice, log 15). The flags are said separately. -/
def Wrote (rd : Reg) (v : Word) (s t : State) : Prop :=
  (Stored rd → t.regs.get rd = v) ∧
  (∀ q : Reg, q ≠ rd → t.regs.get q = s.regs.get q) ∧
  (rd ≠ .r13 → t.cycleCounter = s.cycleCounter) ∧
  (rd ≠ .r14 → t.special = s.special) ∧
  t.inFlight = if rd = .r15 then s.inFlight ++ [(Config.r15WriteDelay, v + Config.r15WriteOffset)] else s.inFlight

/-- What a Move or a taken Set leaves: `rd` written, no flag written (unless `rd` is the flags register), the next
instruction, no byte stored. -/
def MoveDone (rd : Reg) (v : Word) (s t : State) : Prop :=
  Wrote rd v s t ∧ (rd ≠ .r14 → t.flags = s.flags) ∧ t.pc = s.pc + Config.pcStep ∧ SameBytes s t ∧ SameRest s t

/-- What an ALU instruction with result `r` leaves (R110, R111): `rd` written, Z and N from `r`, the given C and O
(unless `rd` is the flags register), the next instruction, no byte stored. -/
def AluDone (rd : Reg) (r : Word) (c o : Bool) (s t : State) : Prop :=
  Wrote rd r s t ∧ (rd ≠ .r14 → t.flags = ⟨decide (r = 0), r.getLsbD 15, c, o⟩) ∧
    t.pc = s.pc + Config.pcStep ∧ SameBytes s t ∧ SameRest s t

/-- What a store to the listed addresses leaves: no register, flag, special bit or counter written, the next instruction,
no byte outside the addresses changed. -/
def StoreDone (addrs : List Word) (s t : State) : Prop :=
  t.regs = s.regs ∧ t.cycleCounter = s.cycleCounter ∧ t.flags = s.flags ∧ t.special = s.special ∧
    t.inFlight = s.inFlight ∧ t.pc = s.pc + Config.pcStep ∧ SameBytesOutside addrs s t ∧ SameRest s t

/-- The machine is not halted and the word at its pc stands for `i`. -/
def Runs (s : State) (i : Instr) : Prop :=
  s.halted = false ∧ ∃ w, Cells.get s.imem s.pc.toNat = some w ∧ decode w = .ok i

/-- The meanings of the instructions one after another, each with the end of its step. -/
def runAll : List Instr → State → Result
  | [], s => .next s
  | i :: is, s =>
    match endStep (exec i s) with
    | .next t => runAll is t
    | .fault f => .fault f
    | .refused e => .refused e

/-- The destination register of an instruction that has one (Move loads and register forms, Set, ALU: R20). -/
def destination : Instr → Option Reg
  | .movImm _ rd | .movReg _ rd | .mvbLoad _ _ rd | .mvwLoad _ _ rd => some rd
  | .seq _ rd | .sne _ rd | .sgt _ rd | .sge _ rd | .slt _ rd | .sle _ rd | .sov _ rd | .scr _ rd => some rd
  | .add _ _ rd | .sub _ _ rd | .rsl _ _ rd | .rsa _ _ rd | .lsh _ _ rd | .exb _ _ rd => some rd
  | .and _ _ rd | .orr _ _ rd | .xor _ _ rd | .cnt _ _ rd => some rd
  | .hlt | .jeq _ | .jne _ | .jgt _ | .jge _ | .jlt _ | .jle _ | .jov _ | .jmp _ | .ats | .ate | .int _ | .rft => none
  | .tmr _ _ _ _ | .mvbStore _ _ _ | .mvwStore _ _ _ => none

/-- The registers an operand reads. -/
def registerOf : Operand → List Reg
  | .imm _ => []
  | .reg r => [r]

/-- The registers an instruction reads as source operands (R19): a store reads its data and its base register, CNT Reg A only
(R121). Return From Trap and Timer are refused whatever their fields hold (R106, R107). -/
def sources : Instr → List Reg
  | .hlt | .ats | .ate | .rft | .tmr _ _ _ _ | .movImm _ _ => []
  | .jeq t | .jne t | .jgt t | .jge t | .jlt t | .jle t | .jov t | .jmp t | .int t => registerOf t
  | .movReg rs _ | .mvbLoad rs _ _ | .mvwLoad rs _ _ | .cnt rs _ _ => [rs]
  | .mvbStore rs _ base | .mvwStore rs _ base => [rs, base]
  | .seq b _ | .sne b _ | .sgt b _ | .sge b _ | .slt b _ | .sle b _ | .sov b _ | .scr b _ => registerOf b
  | .add ra b _ | .sub ra b _ | .rsl ra b _ | .rsa ra b _ | .lsh ra b _ | .exb ra b _ => ra :: registerOf b
  | .and ra b _ | .orr ra b _ | .xor ra b _ => ra :: registerOf b

/-- The refusal of an instruction's register operands (R19, R20, R146): a read of r15 before a write of r13, r14 or r15, in the
order R149 writes them under its number 7 (deduced, log 38). -/
def refusedOperand (i : Instr) : Option Refusal :=
  if .r15 ∈ sources i then some .readR15
  else if destination i = some .r13 then some .writeR13
  else if destination i = some .r14 then some .writeR14
  else if destination i = some .r15 then some .writeR15
  else none

/-- The ten ALU instructions, which write the flags (R111). -/
def isAlu : Instr → Bool
  | .add _ _ _ | .sub _ _ _ | .rsl _ _ _ | .rsa _ _ _ | .lsh _ _ _ | .exb _ _ _ => true
  | .and _ _ _ | .orr _ _ _ | .xor _ _ _ | .cnt _ _ _ => true
  | .hlt | .jeq _ | .jne _ | .jgt _ | .jge _ | .jlt _ | .jle _ | .jov _ | .jmp _ | .ats | .ate | .int _ | .rft => false
  | .tmr _ _ _ _ | .movImm _ _ | .movReg _ _ | .mvbLoad _ _ _ | .mvbStore _ _ _ | .mvwLoad _ _ _ => false
  | .mvwStore _ _ _ | .seq _ _ | .sne _ _ | .sgt _ _ | .sge _ _ | .slt _ _ | .sle _ _ | .sov _ _ | .scr _ _ => false

/-- INT, after which the operating system has had control. -/
def isInt : Instr → Bool
  | .int _ => true
  | .hlt | .jeq _ | .jne _ | .jgt _ | .jge _ | .jlt _ | .jle _ | .jov _ | .jmp _ | .ats | .ate | .rft => false
  | .tmr _ _ _ _ | .movImm _ _ | .movReg _ _ | .mvbLoad _ _ _ | .mvbStore _ _ _ | .mvwLoad _ _ _ => false
  | .mvwStore _ _ _ | .seq _ _ | .sne _ _ | .sgt _ _ | .sge _ _ | .slt _ _ | .sle _ _ | .sov _ _ | .scr _ _ => false
  | .add _ _ _ | .sub _ _ _ | .rsl _ _ _ | .rsa _ _ _ | .lsh _ _ _ | .exb _ _ _ => false
  | .and _ _ _ | .orr _ _ _ | .xor _ _ _ | .cnt _ _ _ => false

/-- A row of the source's jump or set table: the instruction, its type code, its condition. -/
structure CondRow (α : Type) where
  instr : α
  ty : Nat
  cond : Flags → Bool

/-- The jump table of R71, the conditions written out. -/
def jumpTable : List (CondRow (Operand → Instr)) :=
  [⟨.jeq, 0, fun f => f.z⟩, ⟨.jne, 1, fun f => !f.z⟩, ⟨.jgt, 2, fun f => !f.z && !f.n⟩, ⟨.jge, 3, fun f => f.z || !f.n⟩,
    ⟨.jlt, 4, fun f => f.n⟩, ⟨.jle, 5, fun f => f.z || f.n⟩, ⟨.jov, 6, fun f => f.o⟩, ⟨.jmp, 7, fun _ => true⟩]

/-- The set table of R130, the conditions written out. -/
def setTable : List (CondRow (Operand → Reg → Instr)) :=
  [⟨.seq, 0, fun f => f.z⟩, ⟨.sne, 1, fun f => !f.z⟩, ⟨.sgt, 2, fun f => !f.z && !f.n⟩, ⟨.sge, 3, fun f => f.z || !f.n⟩,
    ⟨.slt, 4, fun f => f.n⟩, ⟨.sle, 5, fun f => f.z || f.n⟩, ⟨.sov, 6, fun f => f.o⟩, ⟨.scr, 7, fun f => f.c⟩]

/-- The ALU table of section 46: each instruction with its opcode and type code. -/
def aluTable : List ((Reg → Operand → Reg → Instr) × Nat × Nat) :=
  [(.add, 8, 0), (.sub, 8, 1), (.rsl, 9, 0), (.rsa, 9, 1), (.lsh, 10, 0), (.exb, 11, 0), (.and, 12, 0), (.orr, 13, 0),
    (.xor, 14, 0), (.cnt, 15, 0)]

/-- A register's number. -/
def number (r : Reg) : Nat := r.toBits.toNat

/-- The opcode W[31:28] of a word (R51). -/
def opcodeOf (w : InstrWord) : Nat := w.toNat / 2 ^ 28

/-- The type code W[27:25] of a word (R51). -/
def typeOf (w : InstrWord) : Nat := w.toNat / 2 ^ 25 % 8

/-- The type codes the source does not list, group by group (R58); opcode 4 is Return From Trap by the spec's suggestion. -/
def Unlisted (w : InstrWord) : Prop :=
  (opcodeOf w ∈ [0, 3, 4, 10, 11, 12, 13, 14, 15] ∧ typeOf w ≠ 0) ∨
    (opcodeOf w ∈ [2, 8, 9] ∧ 2 ≤ typeOf w) ∨ (opcodeOf w = 6 ∧ 6 ≤ typeOf w)

/-- The bits that are zero in a canonical word of the word's group, type code and form (the table of R57). -/
def unusedBits (w : InstrWord) : InstrWord :=
  let reg := w.getLsbD 24
  match opcodeOf w with
  | 0 => 0x0FFFFFFF
  | 1 => if reg then 0x000FFFFF else 0x00F0000F
  | 2 => 0x0DFFFFFF
  | 3 => if reg then 0x0E0FFFFF else 0x0EF0000F
  | 4 => 0x0FFFFFFF
  | 5 => 0x0000000F
  | 6 =>
    match typeOf w with
    | 0 => 0x01F00000
    | 1 => 0x010FFFF0
    | _ => 0x01000000
  | 7 => if reg then 0x00F0FFF0 else 0x00F00000
  | _ => if reg then 0x0000FFF0 else 0x00000000

/-- The mask of an instruction's row in the opcode table. -/
def rowMask : Instr → InstrWord
  | .hlt | .ats | .ate => 0xFFFFFFFF
  | .rft | .tmr _ _ _ _ => 0xF0000000
  | .int _ => 0xFE00000F
  | .movImm _ _ | .movReg _ _ | .mvbLoad _ _ _ | .mvbStore _ _ _ | .mvwLoad _ _ _ | .mvwStore _ _ _ => 0xFF000000
  | .jeq _ | .jne _ | .jgt _ | .jge _ | .jlt _ | .jle _ | .jov _ | .jmp _ => 0xFE000000
  | .seq _ _ | .sne _ _ | .sgt _ _ | .sge _ _ | .slt _ _ | .sle _ _ | .sov _ _ | .scr _ _ => 0xFE000000
  | .add _ _ _ | .sub _ _ _ | .rsl _ _ _ | .rsa _ _ _ | .lsh _ _ _ | .exb _ _ _ => 0xFE000000
  | .and _ _ _ | .orr _ _ _ | .xor _ _ _ | .cnt _ _ _ => 0xFE000000

/-- The match of an instruction's row in the opcode table. -/
def rowMatch : Instr → InstrWord
  | .hlt => 0x00000000
  | .jeq _ => 0x10000000
  | .jne _ => 0x12000000
  | .jgt _ => 0x14000000
  | .jge _ => 0x16000000
  | .jlt _ => 0x18000000
  | .jle _ => 0x1A000000
  | .jov _ => 0x1C000000
  | .jmp _ => 0x1E000000
  | .ats => 0x20000000
  | .ate => 0x22000000
  | .int _ => 0x30000000
  | .rft => 0x40000000
  | .tmr _ _ _ _ => 0x50000000
  | .movImm _ _ => 0x60000000
  | .movReg _ _ => 0x62000000
  | .mvbLoad _ _ _ => 0x64000000
  | .mvbStore _ _ _ => 0x66000000
  | .mvwLoad _ _ _ => 0x68000000
  | .mvwStore _ _ _ => 0x6A000000
  | .seq _ _ => 0x70000000
  | .sne _ _ => 0x72000000
  | .sgt _ _ => 0x74000000
  | .sge _ _ => 0x76000000
  | .slt _ _ => 0x78000000
  | .sle _ _ => 0x7A000000
  | .sov _ _ => 0x7C000000
  | .scr _ _ => 0x7E000000
  | .add _ _ _ => 0x80000000
  | .sub _ _ _ => 0x82000000
  | .rsl _ _ _ => 0x90000000
  | .rsa _ _ _ => 0x92000000
  | .lsh _ _ _ => 0xA0000000
  | .exb _ _ _ => 0xB0000000
  | .and _ _ _ => 0xC0000000
  | .orr _ _ _ => 0xD0000000
  | .xor _ _ _ => 0xE0000000
  | .cnt _ _ _ => 0xF0000000

end Sys2Proof.Claims

open Sys2Proof Sys2Proof.Machine Sys2Proof.Claims

/-! ### Reset, fetch and the step -/

/-- R26, R160, R161: after reset the machine is not halted and pc is RESET_PC, whose value 0 is the spec's default (log 6);
the program is loaded from outside, so no slot is loaded yet (log 30). -/
def Obligations.ResetIsRunningAtTheResetPc : Prop :=
  State.reset.halted = false ∧ State.reset.pc = 0 ∧ ∀ a, Cells.get State.reset.imem a = none

/-- Where the word at pc stands for an instruction: the step refuses it by the name of its register operand if it reads r15 or
writes r13, r14 or r15 (R19, R20), and is its meaning and the end of the step otherwise; a step under the policy to run those
operands is its meaning and the end of the step always (log 41). That read_r15 is named where both apply is deduced (log 38):
R149 puts the four names under one number. No FetchMisaligned comes first by PC_STEP = 1 (log 1). When nothing is in flight to r15, the end of the step
only counts it and lets the cycle counter run on (logs 16, 20). -/
def Obligations.StepRunsTheDecodedInstruction : Prop :=
  ∀ (s : State) (i : Instr), Runs s i →
    (∀ e, refusedOperand i = some e → step s = .refused e) ∧
    (refusedOperand i = none → step s = endStep (exec i s)) ∧
    stepAs .run s = endStep (exec i s) ∧
    ∀ t, exec i s = .next t → t.inFlight = [] →
      stepAs .run s = .next { t with cycleCounter := Config.cycleTick t.draws t.cycleCounter, draws := t.draws + 1 } ∧
      (refusedOperand i = none →
        step s = .next { t with cycleCounter := Config.cycleTick t.draws t.cycleCounter, draws := t.draws + 1 })

/-- R37: a fetch from a slot where no instruction is loaded stops with FetchUnmapped. -/
def Obligations.FetchOutsideTheProgramFaults : Prop :=
  ∀ s : State, s.halted = false → Cells.get s.imem s.pc.toNat = none → step s = .fault (.fetchUnmapped s.pc)

/-- R18: with PC_STEP = 4 a pc that is not a multiple of 4 is refused by FetchMisaligned, and before FetchUnmapped
(R149), and one that is a multiple of 4 fetches the word of its slot; with PC_STEP = 1 every pc is a valid instruction
address. -/
def Obligations.MisalignedFetchIsReportedFirst : Prop :=
  ∀ s : State,
    (s.pc.toNat % 4 ≠ 0 → fetchAs 4 s = .error (.fetchMisaligned s.pc)) ∧
    (s.pc.toNat % 4 = 0 → Cells.get s.imem s.pc.toNat = none → fetchAs 4 s = .error (.fetchUnmapped s.pc)) ∧
    (∀ w, s.pc.toNat % 4 = 0 → Cells.get s.imem s.pc.toNat = some w → fetchAs 4 s = .ok w) ∧
    ∀ w, Cells.get s.imem s.pc.toNat = some w → fetchAs 1 s = .ok w

/-- R70, R21: HLT sets the stop mark, leaves pc at the HLT, and changes nothing else, in either mode; a machine with the stop
mark has no step. -/
def Obligations.HltStopsAndChangesNothingElse : Prop :=
  (∀ s : State, exec .hlt s = .next { s with halted := true }) ∧
  (∀ s : State, Runs s .hlt → ∃ t, step s = .next t ∧ t.halted = true ∧ t.pc = s.pc ∧ t.regs = s.regs ∧
    t.flags = s.flags ∧ t.special = s.special ∧ SameBytes s t) ∧
  (∀ s t : State, s.halted = true → step s ≠ .next t)

/-- R171: HLT is the one instruction that ends a run, whether the step refuses the unsettled register operands or runs them. -/
def Obligations.OnlyHltHalts : Prop :=
  ∀ (policy : OperandPolicy) (s t : State) (i : Instr), Runs s i → stepAs policy s = .next t →
    (t.halted = true ↔ i = .hlt)

/-- A word that is no instruction stops the step by the name of its kind (R57, R58). -/
def Obligations.StepRefusesWordsThatAreNoInstruction : Prop :=
  ∀ (s : State) (w : InstrWord), s.halted = false → Cells.get s.imem s.pc.toNat = some w →
    (decode w = .error .reservedEncoding → step s = .refused .reservedEncoding) ∧
    (decode w = .error .noncanonical → step s = .refused .noncanonical)

/-! ### Encoding -/

/-- Every well-formed instruction, with every operand at every value its fields admit, is what its word decodes to. -/
def Obligations.DecodeOfEncodeIsTheInstruction : Prop :=
  ∀ i : Instr, i.wellFormed = true → decode (encode i) = .ok i

/-- Every word the decoder accepts is the canonical word of a well-formed instruction. -/
def Obligations.EncodeOfDecodeIsTheWord : Prop :=
  ∀ (w : InstrWord) (i : Instr), decode w = .ok i → i.wellFormed = true ∧ encode i = w

/-- R58: exactly the words with an unlisted type code are refused as reserved (opcode 0100 is Return From Trap by the
spec's suggestion, log 23). -/
def Obligations.ReservedWordsAreExactlyTheUnlistedTypeCodes : Prop :=
  ∀ w : InstrWord, decode w = .error .reservedEncoding ↔ Unlisted w

/-- R57: a word with a listed type code is an instruction when every bit its instruction does not use is zero, and is
refused as non-canonical otherwise. -/
def Obligations.CanonicalWordsAreExactlyTheInstructions : Prop :=
  ∀ w : InstrWord, ¬ Unlisted w →
    (w &&& unusedBits w = 0 → ∃ i, decode w = .ok i) ∧ (w &&& unusedBits w ≠ 0 → decode w = .error .noncanonical)

/-- Every accepted word matches its instruction's row of the opcode table. -/
def Obligations.DecodedWordsMatchTheOpcodeTable : Prop :=
  ∀ (w : InstrWord) (i : Instr), decode w = .ok i → w &&& rowMask i = rowMatch i

/-- The encodings of the eight jumps (R72 to R79): opcode, type code, ir, address register, immediate. -/
def Obligations.JumpWordsAsTheFormatSays : Prop :=
  ∀ p ∈ jumpTable,
    (∀ v : Word, (encode (p.instr (.imm v))).toNat = 0x10000000 + p.ty * 2 ^ 25 + v.toNat * 2 ^ 4) ∧
    (∀ r : Reg, (encode (p.instr (.reg r))).toNat = 0x10000000 + p.ty * 2 ^ 25 + 2 ^ 24 + number r * 2 ^ 20)

/-- The encodings of the six Move instructions (R85 to R90, R92): the first assembler operand's register in the source
field, the second's in the destination field. -/
def Obligations.MoveWordsAsTheFormatSays : Prop :=
  ∀ (a b : Reg) (v : Word),
    (encode (.movImm v b)).toNat = 0x60000000 + v.toNat * 2 ^ 4 + number b ∧
    (encode (.movReg a b)).toNat = 0x62000000 + number a * 2 ^ 20 + number b ∧
    (encode (.mvbLoad a v b)).toNat = 0x64000000 + number a * 2 ^ 20 + v.toNat * 2 ^ 4 + number b ∧
    (encode (.mvbStore a v b)).toNat = 0x66000000 + number a * 2 ^ 20 + v.toNat * 2 ^ 4 + number b ∧
    (encode (.mvwLoad a v b)).toNat = 0x68000000 + number a * 2 ^ 20 + v.toNat * 2 ^ 4 + number b ∧
    (encode (.mvwStore a v b)).toNat = 0x6A000000 + number a * 2 ^ 20 + v.toNat * 2 ^ 4 + number b

/-- The encodings of the eight sets (R130 to R138): the source register is in the Reg B place. -/
def Obligations.SetWordsAsTheFormatSays : Prop :=
  ∀ p ∈ setTable, ∀ rd : Reg,
    (∀ v : Word, (encode (p.instr (.imm v) rd)).toNat = 0x70000000 + p.ty * 2 ^ 25 + v.toNat * 2 ^ 4 + number rd) ∧
    (∀ r : Reg, (encode (p.instr (.reg r) rd)).toNat = 0x70000000 + p.ty * 2 ^ 25 + 2 ^ 24 + number r * 2 ^ 16 + number rd)

/-- The encodings of the ten ALU instructions (R110, R112 to R121). -/
def Obligations.AluWordsAsTheFormatSays : Prop :=
  ∀ p ∈ aluTable, ∀ ra rd : Reg,
    (∀ v : Word, (encode (p.1 ra (.imm v) rd)).toNat =
      p.2.1 * 2 ^ 28 + p.2.2 * 2 ^ 25 + number ra * 2 ^ 20 + v.toNat * 2 ^ 4 + number rd) ∧
    (∀ r : Reg, (encode (p.1 ra (.reg r) rd)).toNat =
      p.2.1 * 2 ^ 28 + p.2.2 * 2 ^ 25 + 2 ^ 24 + number ra * 2 ^ 20 + number r * 2 ^ 16 + number rd)

/-- Words of the spec, family by family, and the instructions they stand for. -/
def Obligations.SpecWordsDecodeToTheirInstructions : Prop :=
  decode 0x00000000 = .ok .hlt ∧
  decode 0x16041F90 = .ok (.jge (.imm 0x41F9)) ∧
  decode 0x22000000 = .ok .ate ∧
  decode 0x30000040 = .ok (.int (.imm 4)) ∧
  decode 0x66200021 = .ok (.mvbStore .r2 2 .r1) ∧
  decode 0x71010002 = .ok (.seq (.reg .r1) .r2) ∧
  decode 0x82C0008C = .ok (.sub .r12 (.imm 8) .r12) ∧
  decode 0xF1120002 = .ok (.cnt .r1 (.reg .r2) .r2)

/-! ### Registers -/

/-- R19, R11, R15: r0 reads 0, a plain register its value, r14 the flags in bits 3:0; r15 reads the instruction's address
plus the open PC_READ_OFFSET where the read is run (log 14); the spec's step refuses it (log 41). -/
def Obligations.RegistersReadAsSourceOperands : Prop :=
  ∀ (k : ReadSlot) (s : State),
    readReg k .r0 s = 0 ∧
    (∀ r : Reg, Stored r → readReg k r s = s.regs.get r) ∧
    (readReg k .r14 s).getLsbD 0 = s.flags.z ∧ (readReg k .r14 s).getLsbD 1 = s.flags.n ∧
    (readReg k .r14 s).getLsbD 2 = s.flags.c ∧ (readReg k .r14 s).getLsbD 3 = s.flags.o ∧
    readReg k .r15 s = s.pc + Config.pcReadOffset

/-- R11: an instruction with destination r0 leaves every register as it was and does everything else it does: a Move or Set
with it only advances pc. The spec's step refuses a source r15 (R19), in which `exec` completes too: that is the model's choice
(logs 14, 41). The loads meet no unmapped byte (log 3), and a false set keeps its destination (log 5). -/
def Obligations.ZeroRegisterDiscardsWrites : Prop :=
  ∀ (i : Instr) (s : State), destination i = some .r0 →
    ∃ t, exec i s = .next t ∧ t.regs = s.regs ∧ t.special = s.special ∧ t.cycleCounter = s.cycleCounter ∧
      t.inFlight = s.inFlight ∧ SameBytes s t ∧ t.pc = s.pc + Config.pcStep ∧ SameRest s t ∧
      (isAlu i = false → t = { s with pc := s.pc + Config.pcStep })

/-- A step that runs the writes of r15 (the spec's step refuses them: logs 15, 41), whose instruction writes `v` to r15 by a
register move: the transfer of control to `v` plus the open offset happens at once when the open delay is 0, and stays in
flight otherwise. -/
def Obligations.WriteOfR15TransfersControl : Prop :=
  ∀ (s : State) (rs : Reg), Runs s (.movReg rs .r15) → s.inFlight = [] →
    ∃ t, stepAs .run s = .next t ∧
      (if Config.r15WriteDelay = 0 then t.pc = readReg .first rs s + Config.r15WriteOffset ∧ t.inFlight = []
       else t.pc = s.pc + Config.pcStep ∧
        t.inFlight = [(Config.r15WriteDelay - 1, readReg .first rs s + Config.r15WriteOffset)]) ∧
      t.regs = s.regs ∧ t.flags = s.flags ∧ t.special = s.special ∧ SameBytes s t

/-- A write to r15 in flight takes effect when its number of instructions has run: the step that runs the last of them goes
to its target, whatever that instruction's own next pc (logs 15, 41). -/
def Obligations.WriteInFlightTakesEffectWhenDue : Prop :=
  ∀ (policy : OperandPolicy) (s t : State) (i : Instr) (n : Nat) (p : Word), Runs s i → s.inFlight = [(n, p)] →
    destination i ≠ some .r15 → i ≠ .hlt → stepAs policy s = .next t →
      (n = 0 → t.pc = p ∧ t.inFlight = []) ∧ (n ≠ 0 → t.inFlight = [(n - 1, p)])

/-! ### Jumps -/

/-- R71 to R79: each jump goes to its absolute target when its condition holds and to the next instruction otherwise, and
changes nothing but pc. -/
def Obligations.JumpsFollowTheirConditions : Prop :=
  ∀ p ∈ jumpTable, ∀ (target : Operand) (s : State),
    exec (p.instr target) s =
      .next { s with pc := if p.cond s.flags then operandValue .first target s else s.pc + Config.pcStep }

/-- R71, R113, R123: after `SUB A B r0` the jumps named after an order agree with the signed order of A and B when the
subtraction does not overflow, and JEQ, JNE with equality always. Terms printed side by side are alternatives in JGE and JLE
(log 33). -/
def Obligations.CompareThenJumpFollowsTheSignedOrder : Prop :=
  ∀ (s : State) (ra : Reg) (b : Operand) (v : Word),
    ∃ t, exec (.sub ra b .r0) s = .next t ∧
      let x := readReg .first ra s
      let y := operandValue .second b s
      exec (.jeq (.imm v)) t = .next { t with pc := if x = y then v else t.pc + Config.pcStep } ∧
      exec (.jne (.imm v)) t = .next { t with pc := if x ≠ y then v else t.pc + Config.pcStep } ∧
      (t.flags.o = false →
        exec (.jlt (.imm v)) t = .next { t with pc := if x.toInt < y.toInt then v else t.pc + Config.pcStep } ∧
        exec (.jle (.imm v)) t = .next { t with pc := if x.toInt ≤ y.toInt then v else t.pc + Config.pcStep } ∧
        exec (.jgt (.imm v)) t = .next { t with pc := if y.toInt < x.toInt then v else t.pc + Config.pcStep } ∧
        exec (.jge (.imm v)) t = .next { t with pc := if y.toInt ≤ x.toInt then v else t.pc + Config.pcStep })

/-! ### Atomic and the privilege rule -/

/-- R80, R81: the words of ATS and ATE; in kernel mode ATS sets and ATE resets the Atomic bit, pc goes to the next instruction
and nothing else changes; in user mode both stop with PrivilegeViolation, the spec's own decision (log 25). -/
def Obligations.AtomicStartAndEndWriteTheAtomicBit : Prop :=
  encode .ats = 0x20000000 ∧ encode .ate = 0x22000000 ∧
    (∀ s : State, s.special.kernel = true →
      exec .ats s = .next { s with special := ⟨true, true⟩, pc := s.pc + Config.pcStep } ∧
      exec .ate s = .next { s with special := ⟨false, true⟩, pc := s.pc + Config.pcStep }) ∧
    ∀ s : State, s.special.kernel = false →
      exec .ats s = .fault (.privilegeViolation "ATS") ∧ exec .ate s = .fault (.privilegeViolation "ATE")

/-- R83: with kernel = 0 ATS and ATE stop with PrivilegeViolation (log 25). -/
def Obligations.AtomicInUserModeIsAPrivilegeViolation : Prop :=
  ∀ s : State, s.special.kernel = false →
    exec .ats s = .fault (.privilegeViolation "ATS") ∧ exec .ate s = .fault (.privilegeViolation "ATE")

/-- R84: Atomic is one bit and not a depth counter: after ATS, ATS, ATE it is 0. -/
def Obligations.AtomicIsABitAndNotACounter : Prop :=
  ∀ s : State, s.special.kernel = true → s.inFlight = [] →
    (∃ t, runAll [.ats, .ats] s = .next t ∧ t.special.atomic = true) ∧
    (∃ t, runAll [.ats, .ats, .ate] s = .next t ∧ t.special.atomic = false)

/-! ### Move -/

/-- R85, R86, R92: a MOV writes the immediate or the source register's value to its destination and no flag. -/
def Obligations.MovWritesItsOperand : Prop :=
  ∀ (s : State) (rd : Reg),
    (∀ v : Word, ∃ t, exec (.movImm v rd) s = .next t ∧ MoveDone rd v s t) ∧
    (∀ rs : Reg, ∃ t, exec (.movReg rs rd) s = .next t ∧ MoveDone rd (readReg .first rs s) s t)

/-- R87, R31, R36: MVB loads the byte at base + imm modulo 2^16, zero-extended (BYTE_LOAD_EXT is the spec's default, log 4),
at every mapped address (MEM_MAPPED is the spec's default, all: log 3). -/
def Obligations.ByteLoadReadsTheByteAtTheAddress : Prop :=
  ∀ (s : State) (base rd : Reg) (imm : Word),
    ∃ t, exec (.mvbLoad base imm rd) s = .next t ∧
      MoveDone rd (BitVec.ofNat 16 (readByte s (BitVec.ofNat 16 ((readReg .first base s).toNat + imm.toNat))).toNat) s t

/-- R88: MVB stores the lower half of its data register at base + imm, and nothing else changes. -/
def Obligations.ByteStoreWritesTheLowerHalf : Prop :=
  ∀ (s : State) (rs base : Reg) (imm : Word),
    let ea := effectiveAddress .second base imm s
    ∃ t, exec (.mvbStore rs imm base) s = .next t ∧ StoreDone [ea] s t ∧
      (readByte t ea).toNat = (readReg .first rs s).toNat % 256

/-- R89, R33, R35: MVW loads the two bytes at base + imm and the next address, at any alignment, in the open byte order. -/
def Obligations.WordLoadReadsTwoBytes : Prop :=
  ∀ (s : State) (base rd : Reg) (imm : Word),
    let ea := effectiveAddress .first base imm s
    ∃ t, exec (.mvwLoad base imm rd) s = .next t ∧
      MoveDone rd
        (BitVec.ofNat 16
          (if Config.dataBigEndian then (readByte s ea).toNat * 256 + (readByte s (ea + 1)).toNat
           else (readByte s (ea + 1)).toNat * 256 + (readByte s ea).toNat)) s t

/-- R90, R33, R35: MVW stores the two bytes of its data register at base + imm and the next address, in the open byte order,
and nothing else changes. -/
def Obligations.WordStoreWritesTwoBytes : Prop :=
  ∀ (s : State) (rs base : Reg) (imm : Word),
    let ea := effectiveAddress .second base imm s
    let v := (readReg .first rs s).toNat
    ∃ t, exec (.mvwStore rs imm base) s = .next t ∧ StoreDone [ea, ea + 1] s t ∧
      (readByte t ea).toNat = (if Config.dataBigEndian then v / 256 else v % 256) ∧
      (readByte t (ea + 1)).toNat = (if Config.dataBigEndian then v % 256 else v / 256)

/-- R33: for either byte order, what a word read joins and what a word write leaves in each of its two bytes and in every
other byte; a word read from where it was stored is that word; and for any MEM_MAPPED the access needs both bytes. -/
def Obligations.WordReadsBackInEitherByteOrder : Prop :=
  ∀ (big : Bool) (mapped : Word → Bool) (s ok : State) (a v : Word),
    readWordAs big s a =
      (if big then readByte s a ++ readByte s (a + 1) else readByte s (a + 1) ++ readByte s a) ∧
    readByte (writeWordAs big a v s) a = (if big then v.extractLsb' 8 8 else v.extractLsb' 0 8) ∧
    readByte (writeWordAs big a v s) (a + 1) = (if big then v.extractLsb' 0 8 else v.extractLsb' 8 8) ∧
    SameBytesOutside [a, a + 1] s (writeWordAs big a v s) ∧
    readWordAs big (writeWordAs big a v s) a = v ∧
    (whenMapped mapped (wordAddresses a) ok = .next ok ↔ mapped a = true ∧ mapped (a + 1) = true)

/-- R33: MVW stores a word and MVW loads it from the same address unchanged, for every base that both instructions read alike
(r0 or a plain register) and every destination; what is loaded is written as R20 says. -/
def Obligations.StoreThenLoadReturnsTheWord : Prop :=
  ∀ (s : State) (rs base rd : Reg) (imm : Word), Stored base ∨ base = .r0 →
    ∃ t u, exec (.mvwStore rs imm base) s = .next t ∧ exec (.mvwLoad base imm rd) t = .next u ∧
      MoveDone rd (readReg .first rs s) t u

/-- R32: a byte read gives the byte data memory holds, a byte write sets that byte and no other; for any MEM_MAPPED, an access
answers its state when each of its bytes has memory, and otherwise stops with Unmapped at a byte that has none (R33, R89, R90
for the two bytes of a word). That Unmapped names the first byte of a word when both have none is the model's choice (log
38). -/
def Obligations.AccessToAnUnmappedByteFaults : Prop :=
  (∀ (s : State) (a : Word) (b : Byte), Cells.get s.mem a.toNat = some b → readByte s a = b) ∧
  (∀ (s : State) (a : Word) (b : Byte), readByte (writeByte a b s) a = b ∧ SameBytesOutside [a] s (writeByte a b s)) ∧
  ∀ (mapped : Word → Bool) (a : Word) (ok : State),
    (mapped a = true → whenMapped mapped [a] ok = .next ok) ∧
    (mapped a = false → whenMapped mapped [a] ok = .fault (.unmapped a)) ∧
    (mapped a = true → mapped (a + 1) = true → whenMapped mapped (wordAddresses a) ok = .next ok) ∧
    (mapped a = false → whenMapped mapped (wordAddresses a) ok = .fault (.unmapped a)) ∧
    (mapped a = true → mapped (a + 1) = false → whenMapped mapped (wordAddresses a) ok = .fault (.unmapped (a + 1)))

/-- R43, R149: with UNIFIED_MEMORY = true a store is refused, whatever is mapped, when one of its bytes lies in the four bytes
of a loaded instruction (deduced, log 2), and goes by MEM_MAPPED when none does; with false every store goes by MEM_MAPPED. -/
def Obligations.StoreToCodeIsRefusedWhenUnified : Prop :=
  ∀ (mapped : Word → Bool) (code : InstrMemory) (addrs : List Word) (ok : State),
    ((∃ a ∈ addrs, ∃ k < 4, ∃ w, Cells.get code (a - BitVec.ofNat 16 k).toNat = some w) →
      storeAs true mapped code addrs ok = .refused .storeToCode) ∧
    ((∀ a ∈ addrs, ∀ k < 4, Cells.get code (a - BitVec.ofNat 16 k).toNat = none) →
      storeAs true mapped code addrs ok = whenMapped mapped addrs ok) ∧
    storeAs false mapped code addrs ok = whenMapped mapped addrs ok

/-! ### Conditional set -/

/-- R130 to R138: the destination receives the source value when the condition holds and is unchanged otherwise (SET_ELSE is the
spec's default, log 5); no flag is written. The step refuses a destination r13, r14 or r15 whether or not the condition holds
(R130); what `exec` gives there, a false condition leaving the register alone too, is the model's choice (logs 16, 18, 15,
41). -/
def Obligations.SetsWriteTheSourceWhenTheConditionHolds : Prop :=
  ∀ p ∈ setTable, ∀ (src : Operand) (rd : Reg) (s : State),
    ∃ t, exec (p.instr src rd) s = .next t ∧
      (if p.cond s.flags then MoveDone rd (operandValue .first src s) s t else t = { s with pc := s.pc + Config.pcStep })

/-! ### ALU -/

/-- R112, R111: ADD, modulo 2^16; C is the carry out of bit 15; O says that the operands' signs agree and the result's differs. -/
def Obligations.AddResultAndFlags : Prop :=
  ∀ (s : State) (ra rd : Reg) (b : Operand),
    let x := readReg .first ra s
    let y := operandValue .second b s
    let r := BitVec.ofNat 16 ((x.toNat + y.toNat) % 2 ^ 16)
    ∃ t, exec (.add ra b rd) s = .next t ∧
      AluDone rd r (decide (2 ^ 16 ≤ x.toNat + y.toNat))
        (decide (x.getLsbD 15 = y.getLsbD 15 ∧ r.getLsbD 15 ≠ x.getLsbD 15)) s t

/-- R113, R111: SUB, modulo 2^16; O says that the operands' signs differ and the result's is not A's; C by the open SUB_CARRY. -/
def Obligations.SubResultAndFlags : Prop :=
  ∀ (s : State) (ra rd : Reg) (b : Operand),
    let x := readReg .first ra s
    let y := operandValue .second b s
    let r := BitVec.ofInt 16 ((x.toNat : Int) - (y.toNat : Int))
    ∃ t, exec (.sub ra b rd) s = .next t ∧
      AluDone rd r
        (match Config.subCarry with
          | .borrow => decide (x.toNat < y.toNat)
          | .notBorrow => decide (y.toNat ≤ x.toNat))
        (decide (x.getLsbD 15 ≠ y.getLsbD 15 ∧ r.getLsbD 15 ≠ x.getLsbD 15)) s t

/-- R111: the overflow flag of ADD and of SUB says that the exact signed result does not fit in 16 bits. -/
def Obligations.OverflowFlagsAreSignedOverflow : Prop :=
  ∀ a b : Word,
    (addOverflow a b = true ↔ ¬ (-32768 ≤ a.toInt + b.toInt ∧ a.toInt + b.toInt ≤ 32767)) ∧
    (subOverflow a b = true ↔ ¬ (-32768 ≤ a.toInt - b.toInt ∧ a.toInt - b.toInt ≤ 32767))

/-- R114: RSL divides by 2^B for B up to 15; for B of 16 or more by the open SHIFT_OVER. C and O are drawn. -/
def Obligations.LogicalRightShiftResult : Prop :=
  ∀ (s : State) (ra rd : Reg) (b : Operand),
    let x := readReg .first ra s
    let y := operandValue .second b s
    ∃ t c o, exec (.rsl ra b rd) s = .next t ∧
      AluDone rd
        (BitVec.ofNat 16
          (if y.toNat ≤ 15 then x.toNat / 2 ^ y.toNat
           else match Config.shiftOver with
            | .mod16 => x.toNat / 2 ^ (y.toNat % 16)
            | .saturate => 0)) c o s t

/-- R115: RSA divides the signed value by 2^B, rounding down, for B up to 15; for B of 16 or more by the open SHIFT_OVER. C and
O are drawn. -/
def Obligations.ArithmeticRightShiftResult : Prop :=
  ∀ (s : State) (ra rd : Reg) (b : Operand),
    let x := readReg .first ra s
    let y := operandValue .second b s
    ∃ t c o, exec (.rsa ra b rd) s = .next t ∧
      AluDone rd
        (BitVec.ofInt 16
          (if y.toNat ≤ 15 then x.toInt / (2 : Int) ^ y.toNat
           else match Config.shiftOver with
            | .mod16 => x.toInt / (2 : Int) ^ (y.toNat % 16)
            | .saturate => if x.toInt < 0 then -1 else 0)) c o s t

/-- R116: LSH multiplies by 2^B modulo 2^16 for B up to 15; for B of 16 or more by the open SHIFT_OVER. C and O are drawn. -/
def Obligations.LeftShiftResult : Prop :=
  ∀ (s : State) (ra rd : Reg) (b : Operand),
    let x := readReg .first ra s
    let y := operandValue .second b s
    ∃ t c o, exec (.lsh ra b rd) s = .next t ∧
      AluDone rd
        (BitVec.ofNat 16
          (if y.toNat ≤ 15 then x.toNat * 2 ^ y.toNat % 2 ^ 16
           else match Config.shiftOver with
            | .mod16 => x.toNat * 2 ^ (y.toNat % 16) % 2 ^ 16
            | .saturate => 0)) c o s t

/-- R117: EXB gives bit B of A, counted from the least significant, as 0 or 1, for B up to 15; for B of 16 or more by the open
EXB_OVER. C and O are drawn. -/
def Obligations.ExtractBitResult : Prop :=
  ∀ (s : State) (ra rd : Reg) (b : Operand),
    let x := readReg .first ra s
    let y := operandValue .second b s
    ∃ t c o, exec (.exb ra b rd) s = .next t ∧
      AluDone rd
        (BitVec.ofNat 16
          (if y.toNat ≤ 15 then x.toNat / 2 ^ y.toNat % 2
           else match Config.exbOver with
            | .mod16 => x.toNat / 2 ^ (y.toNat % 16) % 2
            | .zero => 0)) c o s t

/-- R118 to R120: AND, ORR and XOR work bit by bit. C and O are drawn. -/
def Obligations.BitwiseResults : Prop :=
  ∀ (s : State) (ra rd : Reg) (b : Operand),
    let x := readReg .first ra s
    let y := operandValue .second b s
    (∃ t r c o, exec (.and ra b rd) s = .next t ∧ AluDone rd r c o s t ∧
      ∀ i < 16, r.getLsbD i = (x.getLsbD i && y.getLsbD i)) ∧
    (∃ t r c o, exec (.orr ra b rd) s = .next t ∧ AluDone rd r c o s t ∧
      ∀ i < 16, r.getLsbD i = (x.getLsbD i || y.getLsbD i)) ∧
    (∃ t r c o, exec (.xor ra b rd) s = .next t ∧ AluDone rd r c o s t ∧
      ∀ i < 16, r.getLsbD i = Bool.xor (x.getLsbD i) (y.getLsbD i))

/-- R121: CNT counts the bits of A that are 1, whatever the second operand field holds; the result is at most 16, so N is 0. C
and O are drawn. -/
def Obligations.CountOnesResult : Prop :=
  ∀ (s : State) (ra rd : Reg) (b : Operand),
    let x := readReg .first ra s
    let r := BitVec.ofNat 16 ((Finset.range 16).sum fun i => (x.getLsbD i).toNat)
    (∃ t c o, exec (.cnt ra b rd) s = .next t ∧ AluDone rd r c o s t) ∧ r.toNat ≤ 16 ∧ (r = 0 ↔ x = 0) ∧
      exec (.cnt ra b rd) s = exec (.cnt ra (.imm 0) rd) s

/-! ### System -/

/-- R105: INT gives the type, r8 to r10 and the whole state to ENV_INT, and completes in a state that ENV_INT gives, at the next
instruction: the registers, flags, special bits, counter and trap and timer state are what it left, a byte it has written holds
the value it wrote there last, every other byte is as before. The opaque ENV_INT is total: it stands for entry, handler and
return (the model's choice, log 21). -/
def Obligations.IntGivesControlToTheEnvironment : Prop :=
  ∀ (s : State) (type : Operand),
    let reply := Config.envInt
      { type := operandValue .first type s, arg1 := s.regs.r8, arg2 := s.regs.r9, arg3 := s.regs.r10, regs := s.regs
        flags := s.flags, special := s.special, cycleCounter := s.cycleCounter, pc := s.pc, inFlight := s.inFlight
        mem := s.mem, imem := s.imem, trapTimer := s.trapTimer, draws := s.draws }
    ∃ t, exec (.int type) s = .next t ∧
      t = { s with
        regs := reply.regs, flags := reply.flags, special := reply.special, cycleCounter := reply.cycleCounter
        trapTimer := reply.trapTimer, pc := s.pc + Config.pcStep, mem := t.mem } ∧
      (∀ a : Word, readByte t a =
        ((reply.writes.reverse.find? fun w => w.1 == a).map Prod.snd).getD (readByte s a)) ∧
      SameBytesOutside (reply.writes.map Prod.fst) s t

/-- R106, R107: Return From Trap and Timer, to which the spec gives no effect, are refused by name in every state. -/
def Obligations.ReturnFromTrapAndTimerAreRefused : Prop :=
  ∀ (s : State) (ty : Nat) (ir : Bool) (ra : Reg) (imm : Word),
    exec .rft s = .refused .rft ∧ exec (.tmr ty ir ra imm) s = .refused .tmr

/-! ### Pseudo-instructions -/

/-- R91: NOP is `MOV r0 r0`, the word 0x62000000, and changes pc only. -/
def Obligations.NopChangesOnlyThePc : Prop :=
  Pseudo.nop.expand = some [.movReg .r0 .r0] ∧ Pseudo.nop.words = some [0x62000000] ∧
    ∀ s : State, exec (.movReg .r0 .r0) s = .next { s with pc := s.pc + Config.pcStep }

/-- R96, R98, R102: PSW lowers r12 by 16 and stores the register's value there, PPW loads it and raises r12 by 16; with
destination r12 the loaded value is then raised. Nothing outside the word's two bytes changes in memory. PPW r15 is RET and is
left to the statements about r15. -/
def Obligations.PushThenPopWordRestores : Prop :=
  ∀ (s : State) (rs rd : Reg), s.inFlight = [] → rd ≠ .r15 →
    ∃ p q s1 t, (Pseudo.psw (.reg rs)).expand = some p ∧ (Pseudo.ppw rd).expand = some q ∧
      runAll (p.take 1) s = .next s1 ∧ s1.regs.r12 = s.regs.r12 - 16 ∧ runAll (p ++ q) s = .next t ∧
      (Stored rd → rd ≠ .r12 → t.regs.get rd = readReg .first rs s1) ∧
      (rd ≠ .r12 → t.regs.r12 = s.regs.r12) ∧
      (rd = .r12 → t.regs.r12 = readReg .first rs s1 + 16) ∧
      (∀ q : Reg, q ≠ rd → q ≠ .r12 → t.regs.get q = s.regs.get q) ∧
      SameBytesOutside [s.regs.r12 - 16, s.regs.r12 - 16 + 1] s t ∧ t.pc = s.pc + 4

/-- R95, R97, R102: PSB lowers r12 by 8 and stores the lower half of the register there, PPB loads that byte, zero-extended (log
4), and raises r12 by 8. -/
def Obligations.PushThenPopByteRestoresTheLowerHalf : Prop :=
  ∀ (s : State) (rs rd : Reg), s.inFlight = [] → rd ≠ .r15 →
    ∃ p q s1 t, (Pseudo.psb (.reg rs)).expand = some p ∧ (Pseudo.ppb rd).expand = some q ∧
      runAll (p.take 1) s = .next s1 ∧ s1.regs.r12 = s.regs.r12 - 8 ∧ runAll (p ++ q) s = .next t ∧
      (Stored rd → rd ≠ .r12 → (t.regs.get rd).toNat = (readReg .first rs s1).toNat % 256) ∧
      (rd ≠ .r12 → t.regs.r12 = s.regs.r12) ∧
      (rd = .r12 → t.regs.r12.toNat = (readReg .first rs s1).toNat % 256 + 8) ∧
      (∀ q : Reg, q ≠ rd → q ≠ .r12 → t.regs.get q = s.regs.get q) ∧
      SameBytesOutside [s.regs.r12 - 8] s t ∧ t.pc = s.pc + 4

/-- R99: CAL lowers r12 by 16, stores there what r15 reads in its second word (the open offset, log 14), and jumps to its target.
Its words are one apart (PC_STEP, log 1), its store needs no mapping and meets no code (logs 2, 3). The spec's step refuses the
second word (R99; log 41): this says what the words mean where the read is run. -/
def Obligations.CallSavesTheProgramCounterAndJumps : Prop :=
  ∀ (s : State) (target : Operand), s.inFlight = [] →
    ∃ p s2 t, (Pseudo.cal target).expand = some p ∧ runAll (p.take 2) s = .next s2 ∧ runAll p s = .next t ∧
      t.pc = operandValue .first target s2 ∧ t.regs.r12 = s.regs.r12 - 16 ∧
      readWord t (s.regs.r12 - 16) = s.pc + 1 + Config.pcReadOffset ∧
      (∀ q : Reg, q ≠ .r12 → t.regs.get q = s.regs.get q) ∧
      SameBytesOutside [s.regs.r12 - 16, s.regs.r12 - 16 + 1] s t

/-- R100, R103: RET's first word loads the word at r12 and puts a transfer of control to it, plus the open offset K, in flight; if
that word is what a CAL at address A has pushed, the transfer goes to A + 3, the instruction after the CAL (PC_STEP 1, log 1),
exactly when PC_READ_OFFSET + K = 2. The load needs no mapping (log 3); the pushed value is what r15 reads as (log 14). The spec's
step refuses the first word (R100): this says what it means where the write is run (logs 15, 41). -/
def Obligations.ReturnReachesTheCallerExactlyUnderTheOffsetRelation : Prop :=
  ∀ (s : State) (a : Word), readWord s s.regs.r12 = a + 1 + Config.pcReadOffset →
    ∃ i j t v, Pseudo.ret.expand = some [i, j] ∧ exec i s = .next t ∧
      t.inFlight = s.inFlight ++ [(Config.r15WriteDelay, v)] ∧ t.regs = s.regs ∧
      (v = a + 3 ↔ Config.pcReadOffset + Config.r15WriteOffset = 2)

/-- R122: NOT writes the inverted bits of its source. -/
def Obligations.NotInvertsEveryBit : Prop :=
  ∀ (s : State) (rs rd : Reg),
    ∃ i t r c o, (Pseudo.not rs rd).expand = some [i] ∧ exec i s = .next t ∧ AluDone rd r c o s t ∧
      ∀ k < 16, r.getLsbD k = !(readReg .first rs s).getLsbD k

/-! ### The whole machine -/

/-- Every step keeps the invariant: both memories in their canonical form, the writes to r15 in flight (the model's,
log 15) due within the delay and ordered; the machine's step and a step under either operand policy (log 41). -/
def Obligations.EveryStepKeepsTheInvariant : Prop :=
  (∀ s t : State, Inv s → step s = .next t → Inv t) ∧
  ∀ (policy : OperandPolicy) (s t : State), Inv s → stepAs policy s = .next t → Inv t

/-- The state after reset meets the invariant: both memories canonical, the writes to r15 in flight due within the delay and
ordered. It holds of the latter because the list is empty after reset, which is the model's choice (log 15): R26 gives no reset
value of the pipeline. -/
def Obligations.ResetMeetsTheInvariant : Prop := Inv State.reset

/-- R22, R43, R45, R172: a program given as a list of words stands at consecutive addresses, PC_STEP apart, from its load base, and
its load changes nothing else; no step changes instruction memory. That the addresses wrap past 0xFFFF to 0 in the load, with all
65536 slots there, is the model's choice (log 30), and that 65536 words have slots of their own is by PC_STEP = 1 (log 1). That
no INT changes the program is the model's choice (log 21), that no store does is by the two memories (log 2); the steps are those
of either operand policy (log 41). -/
def Obligations.NoStepChangesInstructionMemory : Prop :=
  (∀ (policy : OperandPolicy) (s t : State), stepAs policy s = .next t → t.imem = s.imem) ∧
  ∀ (base : Word) (ws : List InstrWord) (s : State), ws.length ≤ 65536 →
    (∀ (k : Nat) (w : InstrWord), ws[k]? = some w →
      Cells.get (loadProgram base ws s).imem (base + BitVec.ofNat 16 k * Config.pcStep).toNat = some w) ∧
    (∀ a : Word, (∀ k < ws.length, a ≠ base + BitVec.ofNat 16 k * Config.pcStep) →
      Cells.get (loadProgram base ws s).imem a.toNat = Cells.get s.imem a.toNat) ∧
    loadProgram base ws s = { s with imem := (loadProgram base ws s).imem } ∧
    startProgram base ws = loadProgram base ws { State.reset with pc := base }

/-- R15, R111: no instruction but the ten ALU instructions writes a flag, INT excepted, whose flags are free (log 21). A step that
runs writes of r14, which the spec's step refuses, leaves the flags free after one (logs 18, 41). -/
def Obligations.FlagsChangeOnlyByAluInstructions : Prop :=
  ∀ (policy : OperandPolicy) (s t : State) (i : Instr), Runs s i → stepAs policy s = .next t → isAlu i = false →
    isInt i = false → (policy = .refuse ∨ destination i ≠ some .r14) → t.flags = s.flags

/-- R16, R151: no instruction writes the Kernel bit, INT excepted, after which it is free (log 21); the Atomic bit is written by ATS
and ATE besides. A step that runs writes of r14, which the spec's step refuses, leaves both free after one (logs 18, 41). -/
def Obligations.SpecialBitsChangeOnlyByTheirInstructions : Prop :=
  ∀ (policy : OperandPolicy) (s t : State) (i : Instr), Runs s i → stepAs policy s = .next t → isInt i = false →
    (policy = .refuse ∨ destination i ≠ some .r14) →
    t.special.kernel = s.special.kernel ∧ (i ≠ .ats → i ≠ .ate → t.special.atomic = s.special.atomic)

/-- R23, R30: data memory is written by the store forms of Move and nothing else, the operating system during an INT excepted
(log 21); a store writes its own bytes only. -/
def Obligations.MemoryChangesOnlyByStores : Prop :=
  ∀ (policy : OperandPolicy) (s t : State) (i : Instr), Runs s i → stepAs policy s = .next t → isInt i = false →
    (∀ rs imm base, i = .mvbStore rs imm base → SameBytesOutside [effectiveAddress .second base imm s] s t) ∧
    (∀ rs imm base, i = .mvwStore rs imm base →
      SameBytesOutside (wordAddresses (effectiveAddress .second base imm s)) s t) ∧
    ((∀ rs imm base, i ≠ .mvbStore rs imm base) → (∀ rs imm base, i ≠ .mvwStore rs imm base) → SameBytes s t)

/-- R13, R20: a step changes no plain register but its instruction's destination, the operating system during an INT excepted (log
21). -/
def Obligations.RegistersChangeOnlyAsDestinations : Prop :=
  ∀ (policy : OperandPolicy) (s t : State) (i : Instr), Runs s i → stepAs policy s = .next t → isInt i = false →
    ∀ q : Reg, destination i ≠ some q → t.regs.get q = s.regs.get q
end

