-- ==== Sys2Proof/Laws/Cells.lean ====
section
/-! SUPPORT. Memory as data: a read after a write, and the canonical form, which every operation keeps. -/

namespace Sys2Proof.Machine

variable {α : Type}

@[simp] theorem Cells.get_put_same (m : Cells α) (k : Nat) (x : α) : Cells.get (Cells.put m k x) k = some x := by
  induction m with
  | nil => simp [Cells.put, Cells.get]
  | cons c m ih =>
    obtain ⟨a, v⟩ := c
    simp only [Cells.put]
    split
    · simp [Cells.get]
    · split
      · simp [Cells.get]
      · simp [Cells.get, *]

theorem Cells.get_put_other (m : Cells α) (k j : Nat) (x : α) (h : j ≠ k) :
    Cells.get (Cells.put m k x) j = Cells.get m j := by
  induction m with
  | nil => simp [Cells.put, Cells.get, h]
  | cons c m ih =>
    obtain ⟨a, v⟩ := c
    simp only [Cells.put]
    split
    · simp [Cells.get, h]
    · split
      · subst_vars
        simp [Cells.get, h]
      · simp [Cells.get, ih]

theorem Cells.risingFrom_mono (m : Cells α) (lo hi : Nat) (h : lo ≤ hi) (hm : Cells.risingFrom hi m = true) :
    Cells.risingFrom lo m = true := by
  cases m with
  | nil => rfl
  | cons c m =>
    obtain ⟨a, v⟩ := c
    simp only [Cells.risingFrom, Bool.and_eq_true, decide_eq_true_eq] at hm ⊢
    exact ⟨by omega, hm.2⟩

theorem Cells.put_risingFrom (m : Cells α) (lo k : Nat) (x : α) (hk : lo ≤ k)
    (hm : Cells.risingFrom lo m = true) : Cells.risingFrom lo (Cells.put m k x) = true := by
  induction m generalizing lo with
  | nil => simp [Cells.put, Cells.risingFrom, hk]
  | cons c m ih =>
    obtain ⟨a, v⟩ := c
    simp only [Cells.risingFrom, Bool.and_eq_true, decide_eq_true_eq] at hm
    simp only [Cells.put]
    split
    · simp only [Cells.risingFrom, Bool.and_eq_true, decide_eq_true_eq]
      exact ⟨hk, by omega, hm.2⟩
    · split
      · subst_vars
        simp only [Cells.risingFrom, Bool.and_eq_true, decide_eq_true_eq]
        exact hm
      · simp only [Cells.risingFrom, Bool.and_eq_true, decide_eq_true_eq]
        exact ⟨hm.1, ih (a + 1) (by omega) hm.2⟩

theorem Cells.put_below (m : Cells α) (k : Nat) (x : α) (hk : k < 65536)
    (hm : m.all (fun c => decide (c.1 < 65536)) = true) :
    (Cells.put m k x).all (fun c => decide (c.1 < 65536)) = true := by
  induction m with
  | nil => simp [Cells.put, hk]
  | cons c m ih =>
    obtain ⟨a, v⟩ := c
    simp only [List.all_cons, Bool.and_eq_true, decide_eq_true_eq] at hm
    simp only [Cells.put]
    split
    · simp only [List.all_cons, Bool.and_eq_true, decide_eq_true_eq]
      exact ⟨hk, hm⟩
    · split
      · simp only [List.all_cons, Bool.and_eq_true, decide_eq_true_eq]
        exact ⟨hk, hm.2⟩
      · simp only [List.all_cons, Bool.and_eq_true, decide_eq_true_eq]
        exact ⟨hm.1, ih hm.2⟩

/-- A write keeps the canonical form. -/
theorem Cells.put_wf (m : Cells α) (k : Nat) (x : α) (hk : k < 65536) (hm : Cells.wf m = true) :
    Cells.wf (Cells.put m k x) = true := by
  simp only [Cells.wf, Bool.and_eq_true] at hm ⊢
  exact ⟨Cells.put_risingFrom m 0 k x (Nat.zero_le k) hm.1, Cells.put_below m k x hk hm.2⟩

theorem Cells.get_of_lt_rising (m : Cells α) (lo k : Nat) (h : k < lo) (hm : Cells.risingFrom lo m = true) :
    Cells.get m k = none := by
  induction m generalizing lo with
  | nil => rfl
  | cons c m ih =>
    obtain ⟨a, v⟩ := c
    simp only [Cells.risingFrom, Bool.and_eq_true, decide_eq_true_eq] at hm
    have : k ≠ a := by omega
    simp only [Cells.get, this, if_false]
    exact ih (a + 1) (by omega) hm.2

/-- In the canonical form equal contents are equal data. -/
theorem Cells.ext_get (m n : Cells α) (lo : Nat) (hm : Cells.risingFrom lo m = true)
    (hn : Cells.risingFrom lo n = true) (h : ∀ k, Cells.get m k = Cells.get n k) : m = n := by
  induction m generalizing n lo with
  | nil =>
    cases n with
    | nil => rfl
    | cons d n =>
      obtain ⟨b, w⟩ := d
      have := h b
      simp [Cells.get] at this
  | cons c m ih =>
    obtain ⟨a, v⟩ := c
    cases n with
    | nil =>
      have := h a
      simp [Cells.get] at this
    | cons d n =>
      obtain ⟨b, w⟩ := d
      simp only [Cells.risingFrom, Bool.and_eq_true, decide_eq_true_eq] at hm hn
      have hab : a = b := by
        by_contra hne
        have h1 := h a
        have h2 := h b
        simp only [Cells.get, if_true, hne, Ne.symm hne, if_false] at h1 h2
        rcases Nat.lt_or_gt_of_ne hne with hlt | hgt
        · rw [Cells.get_of_lt_rising n (b + 1) a (by omega) hn.2] at h1
          cases h1
        · rw [Cells.get_of_lt_rising m (a + 1) b (by omega) hm.2] at h2
          cases h2
      subst hab
      have hv := h a
      simp only [Cells.get, if_true, Option.some.injEq] at hv
      subst hv
      have := ih n (a + 1) hm.2 hn.2 (fun k => by
        by_cases hk : k = a
        · subst hk
          rw [Cells.get_of_lt_rising m (k + 1) k (by omega) hm.2, Cells.get_of_lt_rising n (k + 1) k (by omega) hn.2]
        · have := h k
          simpa [Cells.get, hk] using this)
      rw [this]

end Sys2Proof.Machine
end

