-- ==== Sys2Proof/Laws/Decode.lean ====
section
/-! SUPPORT. The fields of a word and the word of its fields; register numbers both ways. -/

namespace Sys2Proof

@[simp] theorem Reg.ofBits_toBits (r : Reg) : Reg.ofBits r.toBits = r := by cases r <;> rfl

@[simp] theorem Reg.toBits_ofBits (b : BitVec 4) : (Reg.ofBits b).toBits = b := by
  revert b
  decide

theorem Fields.toWord_toNat (f : Fields) :
    f.toWord.toNat = f.op.toNat * 268435456 + f.ty.toNat * 33554432 + f.ir.toNat * 16777216 + f.ra.toNat * 1048576 +
      f.imm.toNat * 16 + f.rd.toNat := by
  have := f.op.isLt
  have := f.ty.isLt
  have := f.ir.isLt
  have := f.ra.isLt
  have := f.imm.isLt
  have := f.rd.isLt
  unfold Fields.toWord
  simp only [BitVec.toNat_append, Nat.shiftLeft_eq]
  rw [← Nat.shiftLeft_eq, ← Nat.shiftLeft_eq, ← Nat.shiftLeft_eq, ← Nat.shiftLeft_eq, ← Nat.shiftLeft_eq]
  repeat rw [← Nat.shiftLeft_add_eq_or_of_lt (by omega)]
  simp only [Nat.shiftLeft_eq]
  omega

/-- The fields of the word put together from fields are those fields (R51). -/
@[simp] theorem Fields.ofWord_toWord (f : Fields) : Fields.ofWord f.toWord = f := by
  have h := f.toWord_toNat
  have := f.op.isLt
  have := f.ty.isLt
  have := f.ir.isLt
  have := f.ra.isLt
  have := f.imm.isLt
  have := f.rd.isLt
  cases f with
  | mk op ty ir ra imm rd =>
    simp only [Fields.ofWord, Fields.mk.injEq]
    refine ⟨?_, ?_, ?_, ?_, ?_, ?_⟩ <;>
      (apply BitVec.eq_of_toNat_eq
       simp only [BitVec.extractLsb'_toNat, Nat.shiftRight_eq_div_pow, h]
       omega)

/-- The word put together from a word's fields is that word (R51). -/
@[simp] theorem Fields.toWord_ofWord (w : InstrWord) : (Fields.ofWord w).toWord = w := by
  apply BitVec.eq_of_toNat_eq
  rw [Fields.toWord_toNat]
  have := w.isLt
  simp only [Fields.ofWord, BitVec.extractLsb'_toNat, Nat.shiftRight_eq_div_pow]
  omega

/-- Reg B is the top of the immediate field it was put into (R51). -/
@[simp] theorem rb_of_append (r : BitVec 4) : BitVec.extractLsb' 12 4 (r ++ 0#12) = r := by
  revert r
  decide

/-- Below Reg B stand the twelve zeros (R51). -/
@[simp] theorem z12_of_append (r : BitVec 4) : BitVec.extractLsb' 0 12 (r ++ 0#12) = 0#12 := by
  revert r
  decide

/-- Decoding an encoded instruction looks at its fields alone. -/
theorem decode_encode_fields (i : Instr) : decode (encode i) = decodeFields (fieldsOf i) := by
  simp [decode, encode]

end Sys2Proof
end

