-- ==== Sys2Proof/Laws/Ops.lean ====
section
/-! SUPPORT. One lemma for each shared operation: what it can do. -/

namespace Sys2Proof.Machine

/-- A byte reads what was stored at its address (R32). -/
@[simp] theorem readByte_writeByte_same (a : Word) (b : Byte) (s : State) : readByte (writeByte a b s) a = b := by
  simp [readByte]

/-- A store leaves every other byte alone (R32). -/
theorem readByte_writeByte_other (a c : Word) (b : Byte) (s : State) (h : c ≠ a) :
    readByte (writeByte a b s) c = readByte s c := by
  have : c.toNat ≠ a.toNat := fun e => h (BitVec.eq_of_toNat_eq e)
  simp [readByte, Cells.get_put_other _ _ _ _ this]

/-- A read depends on data memory alone. -/
theorem readByte_of_mem_eq {s t : State} (h : t.mem = s.mem) (a : Word) : readByte t a = readByte s a := by
  simp [readByte, h]

/-- The two bytes of a word access have different addresses (R33). -/
theorem next_address_ne (a : Word) : a + 1 ≠ a := by
  intro h
  have := congrArg (fun x : Word => x - a) h
  simp at this

/-- The bytes of a word, put together again in the same order, are the word (R33). -/
@[simp] theorem joinBytes_split (big : Bool) (v : Word) : joinBytes big (byteAtFirst big v) (byteAtSecond big v) = v := by
  have := v.isLt
  cases big <;> simp only [joinBytes, byteAtFirst, byteAtSecond, if_true, if_false, Bool.false_eq_true] <;>
    (apply BitVec.eq_of_toNat_eq
     simp only [BitVec.toNat_append, BitVec.extractLsb'_toNat, Nat.shiftRight_eq_div_pow]
     rw [← Nat.shiftLeft_add_eq_or_of_lt (by omega), Nat.shiftLeft_eq]
     omega)

/-- The byte at a after a word store at a (R33). -/
@[simp] theorem readByte_writeWordAs_first (big : Bool) (a v : Word) (s : State) :
    readByte (writeWordAs big a v s) a = byteAtFirst big v := by
  rw [writeWordAs, readByte_writeByte_other _ _ _ _ (next_address_ne a).symm, readByte_writeByte_same]

/-- The byte at a + 1 after a word store at a (R33). -/
@[simp] theorem readByte_writeWordAs_second (big : Bool) (a v : Word) (s : State) :
    readByte (writeWordAs big a v s) (a + 1#16) = byteAtSecond big v := readByte_writeByte_same _ _ _

/-- A word read from where it was stored is that word (R33). -/
@[simp] theorem readWordAs_writeWordAs (big : Bool) (a v : Word) (s : State) :
    readWordAs big (writeWordAs big a v s) a = v := by
  show joinBytes big (readByte _ a) (readByte _ (a + 1#16)) = v
  simp

/-- A word store leaves every byte outside its two alone (R33). -/
theorem readByte_writeWordAs_other (big : Bool) (a v c : Word) (s : State) (h : c ∉ wordAddresses a) :
    readByte (writeWordAs big a v s) c = readByte s c := by
  simp only [wordAddresses, List.mem_cons, List.not_mem_nil, or_false, not_or] at h
  rw [writeWordAs, readByte_writeByte_other _ _ _ _ h.2, readByte_writeByte_other _ _ _ _ h.1]

/-- With every address mapped an access always succeeds (R32, log 3). -/
@[simp] theorem load_eq (addrs : List Word) (ok : State) : load addrs ok = .next ok := by
  have : addrs.find? (fun a => !Config.memMapped a) = none := by simp [Config.memMapped]
  simp [load, whenMapped, this]

/-- With every address mapped and two memories a store always succeeds (R32, R43, logs 2 and 3). -/
@[simp] theorem store_eq (s : State) (addrs : List Word) (ok : State) : store s addrs ok = .next ok := by
  have : addrs.find? (fun a => !Config.memMapped a) = none := by simp [Config.memMapped]
  simp [store, storeAs, Config.unifiedMemory, whenMapped, this]

/-- A byte load completes (R87). -/
theorem execMvbLoad_eq (base : Reg) (imm : Word) (rd : Reg) (s : State) :
    execMvbLoad base imm rd s =
      .next (advance (writeReg rd
        (extendByte (readReg .second rd s) (readByte s (effectiveAddress .first base imm s))) s)) := load_eq _ _

/-- A byte store completes (R88). -/
theorem execMvbStore_eq (rs : Reg) (imm : Word) (base : Reg) (s : State) :
    execMvbStore rs imm base s =
      .next (advance (writeByte (effectiveAddress .second base imm s) ((readReg .first rs s).extractLsb' 0 8) s)) :=
  store_eq _ _ _

/-- A word load completes (R89). -/
theorem execMvwLoad_eq (base : Reg) (imm : Word) (rd : Reg) (s : State) :
    execMvwLoad base imm rd s =
      .next (advance (writeReg rd (readWord s (effectiveAddress .first base imm s)) s)) := load_eq _ _

/-- A word store completes (R90). -/
theorem execMvwStore_eq (rs : Reg) (imm : Word) (base : Reg) (s : State) :
    execMvwStore rs imm base s =
      .next (advance (writeWord (effectiveAddress .second base imm s) (readReg .first rs s) s)) := store_eq _ _ _

/-- An access answers a next state exactly when all its bytes have memory (R32). -/
theorem whenMapped_next_iff (mapped : Word → Bool) (addrs : List Word) (ok t : State) :
    whenMapped mapped addrs ok = .next t ↔ (∀ a ∈ addrs, mapped a = true) ∧ t = ok := by
  unfold whenMapped
  cases h : addrs.find? (fun a => !mapped a) with
  | none =>
    simp only [Host.Outcome.next.injEq]
    rw [List.find?_eq_none] at h
    constructor
    · exact fun e => ⟨fun a ha => by simpa using h a ha, e.symm⟩
    · exact fun e => e.2.symm
  | some a =>
    have h1 := List.find?_some h
    have h2 := List.mem_of_find?_eq_some h
    constructor
    · exact fun e => nomatch e
    · intro e
      simp [e.1 a h2] at h1

/-- Everything the end of an ALU instruction leaves in a field other than the destination's (R110, R111). -/
theorem aluWriteBack_flags (rd : Reg) (r : Word) (c o : Bool) (s : State) (h : rd ≠ .r14) :
    (aluWriteBack rd r c o s).flags = resultFlags r c o := by
  simp [aluWriteBack, h, writeReg_flags rd r _ h]

@[simp] theorem aluWriteBack_pc (rd : Reg) (r : Word) (c o : Bool) (s : State) :
    (aluWriteBack rd r c o s).pc = s.pc + Config.pcStep := by
  unfold aluWriteBack
  split <;> simp

@[simp] theorem aluWriteBack_mem (rd : Reg) (r : Word) (c o : Bool) (s : State) :
    (aluWriteBack rd r c o s).mem = s.mem := by
  unfold aluWriteBack
  split <;> simp

@[simp] theorem aluWriteBack_imem (rd : Reg) (r : Word) (c o : Bool) (s : State) :
    (aluWriteBack rd r c o s).imem = s.imem := by
  unfold aluWriteBack
  split <;> simp

@[simp] theorem aluWriteBack_halted (rd : Reg) (r : Word) (c o : Bool) (s : State) :
    (aluWriteBack rd r c o s).halted = s.halted := by
  unfold aluWriteBack
  split <;> simp

@[simp] theorem aluWriteBack_trapTimer (rd : Reg) (r : Word) (c o : Bool) (s : State) :
    (aluWriteBack rd r c o s).trapTimer = s.trapTimer := by
  unfold aluWriteBack
  split <;> simp

@[simp] theorem aluWriteBack_draws (rd : Reg) (r : Word) (c o : Bool) (s : State) :
    (aluWriteBack rd r c o s).draws = s.draws := by
  unfold aluWriteBack
  split <;> simp

theorem aluWriteBack_special (rd : Reg) (r : Word) (c o : Bool) (s : State) (h : rd ≠ .r14) :
    (aluWriteBack rd r c o s).special = s.special := by
  simp [aluWriteBack, h, writeReg_special rd r _ h]

theorem aluWriteBack_cycleCounter (rd : Reg) (r : Word) (c o : Bool) (s : State) (h : rd ≠ .r13) :
    (aluWriteBack rd r c o s).cycleCounter = s.cycleCounter := by
  unfold aluWriteBack
  split <;> simp [writeReg_cycleCounter rd r _ h]

theorem aluWriteBack_inFlight (rd : Reg) (r : Word) (c o : Bool) (s : State) :
    (aluWriteBack rd r c o s).inFlight =
      if rd = .r15 then s.inFlight ++ [(Config.r15WriteDelay, r + Config.r15WriteOffset)] else s.inFlight := by
  unfold aluWriteBack
  split <;> simp [writeReg_inFlight]

@[simp] theorem aluWriteBack_regs_other (rd q : Reg) (r : Word) (c o : Bool) (s : State) (h : q ≠ rd) :
    (aluWriteBack rd r c o s).regs.get q = s.regs.get q := by
  unfold aluWriteBack
  split <;> simp [h]

theorem aluWriteBack_regs_same (rd : Reg) (r : Word) (c o : Bool) (s : State) (h : Stored rd) :
    (aluWriteBack rd r c o s).regs.get rd = r := by
  unfold aluWriteBack
  split <;> simp [writeReg_regs_same rd r _ h]

/-- The bytes the operating system writes keep the canonical form. -/
theorem writeBytes_wf (ws : List (Word × Byte)) (m : Memory) (h : Memory.wf m = true) :
    Memory.wf (writeBytes ws m) = true := by
  induction ws generalizing m with
  | nil => exact h
  | cons w ws ih => exact ih _ (Cells.put_wf m w.1.toNat w.2 w.1.isLt h)

/-- A byte store keeps the canonical form. -/
theorem writeByte_wf (a : Word) (b : Byte) (s : State) (h : Memory.wf s.mem = true) :
    Memory.wf (writeByte a b s).mem = true := Cells.put_wf s.mem a.toNat b a.isLt h

/-- A word store keeps the canonical form. -/
theorem writeWordAs_wf (big : Bool) (a v : Word) (s : State) (h : Memory.wf s.mem = true) :
    Memory.wf (writeWordAs big a v s).mem = true := writeByte_wf _ _ _ (writeByte_wf _ _ _ h)

/-- With nothing in flight the end of a step moves no pc. -/
theorem settleR15_nil (s : State) (h : s.inFlight = []) : settleR15 s = s := by
  unfold settleR15
  split
  · rfl
  · cases s
    simp_all [dueWrites, laterWrites]

@[simp] theorem settleR15_regs (s : State) : (settleR15 s).regs = s.regs := by
  unfold settleR15
  split <;> rfl
@[simp] theorem settleR15_cycleCounter (s : State) : (settleR15 s).cycleCounter = s.cycleCounter := by
  unfold settleR15
  split <;> rfl
@[simp] theorem settleR15_flags (s : State) : (settleR15 s).flags = s.flags := by
  unfold settleR15
  split <;> rfl
@[simp] theorem settleR15_special (s : State) : (settleR15 s).special = s.special := by
  unfold settleR15
  split <;> rfl
@[simp] theorem settleR15_halted (s : State) : (settleR15 s).halted = s.halted := by
  unfold settleR15
  split <;> rfl
@[simp] theorem settleR15_mem (s : State) : (settleR15 s).mem = s.mem := by
  unfold settleR15
  split <;> rfl
@[simp] theorem settleR15_imem (s : State) : (settleR15 s).imem = s.imem := by
  unfold settleR15
  split <;> rfl
@[simp] theorem settleR15_trapTimer (s : State) : (settleR15 s).trapTimer = s.trapTimer := by
  unfold settleR15
  split <;> rfl
@[simp] theorem settleR15_draws (s : State) : (settleR15 s).draws = s.draws := by
  unfold settleR15
  split <;> rfl

/-- The writes that stay in flight are due within the delay and stay ordered. -/
theorem laterWrites_ordered (q : List (Nat × Word)) (hle : ∀ e ∈ q, e.1 ≤ Config.r15WriteDelay)
    (hp : q.Pairwise (fun a b => a.1 < b.1)) : inFlightOrdered (laterWrites q) := by
  constructor
  · intro e he
    simp only [laterWrites, List.mem_map, List.mem_filter] at he
    obtain ⟨d, ⟨hd, hne⟩, rfl⟩ := he
    have := hle d hd
    have : d.1 ≠ 0 := by simpa using hne
    dsimp only
    omega
  · unfold laterWrites
    rw [List.pairwise_map]
    refine (hp.filter _).imp_of_mem ?_
    intro a b ha hb hab
    have : a.1 ≠ 0 := by simpa using (List.mem_filter.mp ha).2
    dsimp only
    omega

/-- What the end of a step answers. -/
theorem endStep_next_iff (r : Result) (u : State) :
    endStep r = .next u ↔ ∃ t, r = .next t ∧ u = tick (settleR15 t) := by
  cases r with
  | next t =>
    simp only [endStep, Host.Outcome.next.injEq]
    exact ⟨fun h => ⟨t, rfl, h.symm⟩, fun ⟨t', h, hu⟩ => by subst h; exact hu.symm⟩
  | fault f => exact ⟨fun h => (nomatch h), fun ⟨_, h, _⟩ => (nomatch h)⟩
  | refused f => exact ⟨fun h => (nomatch h), fun ⟨_, h, _⟩ => (nomatch h)⟩

/-- Where no register operand is refused the instruction runs (R149). -/
theorem whenOperandsAllowed_none (policy : OperandPolicy) (i : Instr) (r : Result)
    (h : operandRefusalAs policy i = none) : whenOperandsAllowed policy i r = r := by
  simp [whenOperandsAllowed, h]

/-- Where a register operand is refused the instruction does nothing else (R149). -/
theorem whenOperandsAllowed_some (policy : OperandPolicy) (i : Instr) (r : Result) (e : Refusal)
    (h : operandRefusalAs policy i = some e) : whenOperandsAllowed policy i r = .refused e := by
  simp [whenOperandsAllowed, h]

/-- A next state comes from an instruction whose register operands are allowed. -/
theorem whenOperandsAllowed_next_iff (policy : OperandPolicy) (i : Instr) (r : Result) (t : State) :
    whenOperandsAllowed policy i r = .next t ↔ operandRefusalAs policy i = none ∧ r = .next t := by
  unfold whenOperandsAllowed
  cases operandRefusalAs policy i <;> simp

/-- A step that answers a next state runs the one instruction its word stands for, its register operands allowed. -/
theorem stepAs_next_cases (policy : OperandPolicy) (s u : State) (h : stepAs policy s = .next u) :
    s.halted = false ∧ ∃ w i t, fetch s = .ok w ∧ decode w = .ok i ∧ operandRefusalAs policy i = none ∧
      exec i s = .next t ∧ u = tick (settleR15 t) := by
  unfold stepAs at h
  split at h
  · cases h
  · rename_i hh
    refine ⟨by simpa using hh, ?_⟩
    split at h
    · cases h
    · rename_i w hw
      split at h
      · cases h
      · rename_i i hi
        obtain ⟨ha, he⟩ := (whenOperandsAllowed_next_iff _ _ _ _).mp h
        obtain ⟨t, ht, hu⟩ := (endStep_next_iff _ _).mp he
        exact ⟨w, i, t, hw, hi, ha, ht, hu⟩

/-- A step of an instruction that the word at pc stands for (R37, with the spec's default PC_STEP). -/
theorem stepAs_of_decode (policy : OperandPolicy) (s : State) (w : InstrWord) (i : Instr) (hh : s.halted = false)
    (hw : Cells.get s.imem s.pc.toNat = some w) (hi : decode w = .ok i) :
    stepAs policy s = whenOperandsAllowed policy i (endStep (exec i s)) := by
  simp [stepAs, hh, fetch, fetchAs, pcMisaligned, Config.pcStep, hw, hi]

/-- A program load keeps the canonical form. -/
theorem placeWords_wf (base : Word) (ws : List InstrWord) (m : InstrMemory) (h : Cells.wf m = true) :
    Cells.wf (placeWords base ws m) = true := by
  induction ws generalizing base m with
  | nil => exact h
  | cons w ws ih => exact ih _ _ (Cells.put_wf m base.toNat w base.isLt h)

@[simp] theorem loadProgram_imem (base : Word) (ws : List InstrWord) (s : State) :
    (loadProgram base ws s).imem = placeWords base ws s.imem := rfl

end Sys2Proof.Machine
end

