-- ==== Sys2Proof/Laws/PerInstr.lean ====
section
/-! SUPPORT. A family of laws made per instruction: the word of each instruction carries its group's opcode in its four
leftmost bits (R52). -/

namespace Sys2Proof.Laws

/-- The opcode of each instruction's group, as the opcode map of R52 lists them. -/
def groupOpcode : Instr → BitVec 4
  | .hlt => 0x0
  | .jeq _ | .jne _ | .jgt _ | .jge _ | .jlt _ | .jle _ | .jov _ | .jmp _ => 0x1
  | .ats | .ate => 0x2
  | .int _ => 0x3
  | .rft => Config.opcRft
  | .tmr _ _ _ _ => Config.opcTmr
  | .movImm _ _ | .movReg _ _ | .mvbLoad _ _ _ | .mvbStore _ _ _ | .mvwLoad _ _ _ | .mvwStore _ _ _ => 0x6
  | .seq _ _ | .sne _ _ | .sgt _ _ | .sge _ _ | .slt _ _ | .sle _ _ | .sov _ _ | .scr _ _ => 0x7
  | .add _ _ _ | .sub _ _ _ => 0x8
  | .rsl _ _ _ | .rsa _ _ _ => 0x9
  | .lsh _ _ _ => 0xA
  | .exb _ _ _ => 0xB
  | .and _ _ _ => 0xC
  | .orr _ _ _ => 0xD
  | .xor _ _ _ => 0xE
  | .cnt _ _ _ => 0xF

/-- The instruction's word has its group's opcode at W[31:28]. -/
def OpcodePlacement.Statement (i : Instr) : Prop := (encode i).extractLsb' 28 4 = groupOpcode i

theorem op_of_encode (i : Instr) : (encode i).extractLsb' 28 4 = (fieldsOf i).op :=
  congrArg Fields.op (Fields.ofWord_toWord (fieldsOf i))

@[simp] theorem fieldsOfOperandA_op (op : BitVec 4) (ty : BitVec 3) (t : Operand) : (fieldsOfOperandA op ty t).op = op := by
  cases t <;> rfl

@[simp] theorem fieldsOfOperandB_op (op : BitVec 4) (ty : BitVec 3) (ra : BitVec 4) (b : Operand) (rd : Reg) :
    (fieldsOfOperandB op ty ra b rd).op = op := by
  cases b <;> rfl

theorem OpcodePlacement.hlt : OpcodePlacement.Statement (.hlt) := by
  simp [OpcodePlacement.Statement, op_of_encode, fieldsOf, groupOpcode]

theorem OpcodePlacement.jeq (target : Operand) : OpcodePlacement.Statement (.jeq target) := by
  simp [OpcodePlacement.Statement, op_of_encode, fieldsOf, groupOpcode]

theorem OpcodePlacement.jne (target : Operand) : OpcodePlacement.Statement (.jne target) := by
  simp [OpcodePlacement.Statement, op_of_encode, fieldsOf, groupOpcode]

theorem OpcodePlacement.jgt (target : Operand) : OpcodePlacement.Statement (.jgt target) := by
  simp [OpcodePlacement.Statement, op_of_encode, fieldsOf, groupOpcode]

theorem OpcodePlacement.jge (target : Operand) : OpcodePlacement.Statement (.jge target) := by
  simp [OpcodePlacement.Statement, op_of_encode, fieldsOf, groupOpcode]

theorem OpcodePlacement.jlt (target : Operand) : OpcodePlacement.Statement (.jlt target) := by
  simp [OpcodePlacement.Statement, op_of_encode, fieldsOf, groupOpcode]

theorem OpcodePlacement.jle (target : Operand) : OpcodePlacement.Statement (.jle target) := by
  simp [OpcodePlacement.Statement, op_of_encode, fieldsOf, groupOpcode]

theorem OpcodePlacement.jov (target : Operand) : OpcodePlacement.Statement (.jov target) := by
  simp [OpcodePlacement.Statement, op_of_encode, fieldsOf, groupOpcode]

theorem OpcodePlacement.jmp (target : Operand) : OpcodePlacement.Statement (.jmp target) := by
  simp [OpcodePlacement.Statement, op_of_encode, fieldsOf, groupOpcode]

theorem OpcodePlacement.ats : OpcodePlacement.Statement (.ats) := by
  simp [OpcodePlacement.Statement, op_of_encode, fieldsOf, groupOpcode]

theorem OpcodePlacement.ate : OpcodePlacement.Statement (.ate) := by
  simp [OpcodePlacement.Statement, op_of_encode, fieldsOf, groupOpcode]

theorem OpcodePlacement.int (type : Operand) : OpcodePlacement.Statement (.int type) := by
  simp [OpcodePlacement.Statement, op_of_encode, fieldsOf, groupOpcode]

theorem OpcodePlacement.rft : OpcodePlacement.Statement (.rft) := by
  simp [OpcodePlacement.Statement, op_of_encode, fieldsOf, groupOpcode]

theorem OpcodePlacement.tmr (ty : Nat) (ir : Bool) (ra : Reg) (imm : Word) : OpcodePlacement.Statement (.tmr ty ir ra imm) := by
  simp [OpcodePlacement.Statement, op_of_encode, fieldsOf, groupOpcode]

theorem OpcodePlacement.movImm (imm : Word) (rd : Reg) : OpcodePlacement.Statement (.movImm imm rd) := by
  simp [OpcodePlacement.Statement, op_of_encode, fieldsOf, groupOpcode]

theorem OpcodePlacement.movReg (rs rd : Reg) : OpcodePlacement.Statement (.movReg rs rd) := by
  simp [OpcodePlacement.Statement, op_of_encode, fieldsOf, groupOpcode]

theorem OpcodePlacement.mvbLoad (base : Reg) (imm : Word) (rd : Reg) : OpcodePlacement.Statement (.mvbLoad base imm rd) := by
  simp [OpcodePlacement.Statement, op_of_encode, fieldsOf, groupOpcode]

theorem OpcodePlacement.mvbStore (rs : Reg) (imm : Word) (base : Reg) : OpcodePlacement.Statement (.mvbStore rs imm base) := by
  simp [OpcodePlacement.Statement, op_of_encode, fieldsOf, groupOpcode]

theorem OpcodePlacement.mvwLoad (base : Reg) (imm : Word) (rd : Reg) : OpcodePlacement.Statement (.mvwLoad base imm rd) := by
  simp [OpcodePlacement.Statement, op_of_encode, fieldsOf, groupOpcode]

theorem OpcodePlacement.mvwStore (rs : Reg) (imm : Word) (base : Reg) : OpcodePlacement.Statement (.mvwStore rs imm base) := by
  simp [OpcodePlacement.Statement, op_of_encode, fieldsOf, groupOpcode]

theorem OpcodePlacement.seq (src : Operand) (rd : Reg) : OpcodePlacement.Statement (.seq src rd) := by
  simp [OpcodePlacement.Statement, op_of_encode, fieldsOf, groupOpcode]

theorem OpcodePlacement.sne (src : Operand) (rd : Reg) : OpcodePlacement.Statement (.sne src rd) := by
  simp [OpcodePlacement.Statement, op_of_encode, fieldsOf, groupOpcode]

theorem OpcodePlacement.sgt (src : Operand) (rd : Reg) : OpcodePlacement.Statement (.sgt src rd) := by
  simp [OpcodePlacement.Statement, op_of_encode, fieldsOf, groupOpcode]

theorem OpcodePlacement.sge (src : Operand) (rd : Reg) : OpcodePlacement.Statement (.sge src rd) := by
  simp [OpcodePlacement.Statement, op_of_encode, fieldsOf, groupOpcode]

theorem OpcodePlacement.slt (src : Operand) (rd : Reg) : OpcodePlacement.Statement (.slt src rd) := by
  simp [OpcodePlacement.Statement, op_of_encode, fieldsOf, groupOpcode]

theorem OpcodePlacement.sle (src : Operand) (rd : Reg) : OpcodePlacement.Statement (.sle src rd) := by
  simp [OpcodePlacement.Statement, op_of_encode, fieldsOf, groupOpcode]

theorem OpcodePlacement.sov (src : Operand) (rd : Reg) : OpcodePlacement.Statement (.sov src rd) := by
  simp [OpcodePlacement.Statement, op_of_encode, fieldsOf, groupOpcode]

theorem OpcodePlacement.scr (src : Operand) (rd : Reg) : OpcodePlacement.Statement (.scr src rd) := by
  simp [OpcodePlacement.Statement, op_of_encode, fieldsOf, groupOpcode]

theorem OpcodePlacement.add (ra : Reg) (b : Operand) (rd : Reg) : OpcodePlacement.Statement (.add ra b rd) := by
  simp [OpcodePlacement.Statement, op_of_encode, fieldsOf, groupOpcode]

theorem OpcodePlacement.sub (ra : Reg) (b : Operand) (rd : Reg) : OpcodePlacement.Statement (.sub ra b rd) := by
  simp [OpcodePlacement.Statement, op_of_encode, fieldsOf, groupOpcode]

theorem OpcodePlacement.rsl (ra : Reg) (b : Operand) (rd : Reg) : OpcodePlacement.Statement (.rsl ra b rd) := by
  simp [OpcodePlacement.Statement, op_of_encode, fieldsOf, groupOpcode]

theorem OpcodePlacement.rsa (ra : Reg) (b : Operand) (rd : Reg) : OpcodePlacement.Statement (.rsa ra b rd) := by
  simp [OpcodePlacement.Statement, op_of_encode, fieldsOf, groupOpcode]

theorem OpcodePlacement.lsh (ra : Reg) (b : Operand) (rd : Reg) : OpcodePlacement.Statement (.lsh ra b rd) := by
  simp [OpcodePlacement.Statement, op_of_encode, fieldsOf, groupOpcode]

theorem OpcodePlacement.exb (ra : Reg) (b : Operand) (rd : Reg) : OpcodePlacement.Statement (.exb ra b rd) := by
  simp [OpcodePlacement.Statement, op_of_encode, fieldsOf, groupOpcode]

theorem OpcodePlacement.and (ra : Reg) (b : Operand) (rd : Reg) : OpcodePlacement.Statement (.and ra b rd) := by
  simp [OpcodePlacement.Statement, op_of_encode, fieldsOf, groupOpcode]

theorem OpcodePlacement.orr (ra : Reg) (b : Operand) (rd : Reg) : OpcodePlacement.Statement (.orr ra b rd) := by
  simp [OpcodePlacement.Statement, op_of_encode, fieldsOf, groupOpcode]

theorem OpcodePlacement.xor (ra : Reg) (b : Operand) (rd : Reg) : OpcodePlacement.Statement (.xor ra b rd) := by
  simp [OpcodePlacement.Statement, op_of_encode, fieldsOf, groupOpcode]

theorem OpcodePlacement.cnt (ra : Reg) (b : Operand) (rd : Reg) : OpcodePlacement.Statement (.cnt ra b rd) := by
  simp [OpcodePlacement.Statement, op_of_encode, fieldsOf, groupOpcode]

end Sys2Proof.Laws
end

