-- ==== Sys2Proof/Tests/Slice0.lean ====
section
/-! SUPPORT. The model's own tests: the smoke test of WellFormed, words written out from the spec's encodings, one-step
results of spec/95_test_vectors.md and of the rules' examples, and a witness for every statement with hypotheses. -/

namespace Sys2Proof.Tests

open Sys2Proof.Machine Sys2Proof.Claims

/-! ### WellFormed -/

/-- R56, format T: the type code has three bits. -/
theorem test_illformed_timer_type : (Instr.tmr 8 false .r1 0).wellFormed = false := by decide

theorem test_wellformed_timer_type : (Instr.tmr 7 false .r1 0).wellFormed = true := by decide

/-! ### Decoding: every constructor by a word of the spec -/

/-- R70, R80, R81, R106 (the opcode 0100 by the spec's suggestion, R59). -/
theorem test_decode_no_operand :
    decode 0b00000000000000000000000000000000 = .ok .hlt ∧ decode 0b00100000000000000000000000000000 = .ok .ats ∧
      decode 0b00100010000000000000000000000000 = .ok .ate ∧ decode 0b01000000000000000000000000000000 = .ok .rft := by
  decide

/-- R72 to R79, section 2.2 of the vectors. -/
theorem test_decode_jumps :
    decode 0x11100000 = .ok (.jeq (.reg .r1)) ∧ decode 0x12000020 = .ok (.jne (.imm 2)) ∧
      decode 0x14001000 = .ok (.jgt (.imm 0x100)) ∧ decode 0x16041F90 = .ok (.jge (.imm 0x41F9)) ∧
      decode 0x18000060 = .ok (.jlt (.imm 6)) ∧ decode 0x1B200000 = .ok (.jle (.reg .r2)) ∧
      decode 0x1C000090 = .ok (.jov (.imm 9)) ∧ decode 0x1F700000 = .ok (.jmp (.reg .r7)) := by
  decide

/-- R105, R107: format I in both forms; format T: type 101, register form, Reg A = r3. -/
theorem test_decode_system :
    decode 0b00110000000000000000000001000000 = .ok (.int (.imm 4)) ∧
      decode 0b00110001001100000000000000000000 = .ok (.int (.reg .r3)) ∧
      decode 0b01011011001100000000000000010000 = .ok (.tmr 5 true .r3 1) := by
  decide

/-- R85 to R90, section 2.4 of the vectors. -/
theorem test_decode_moves :
    decode 0x60000053 = .ok (.movImm 5 .r3) ∧ decode 0x62100008 = .ok (.movReg .r1 .r8) ∧
      decode 0x64100024 = .ok (.mvbLoad .r1 2 .r4) ∧ decode 0x66200021 = .ok (.mvbStore .r2 2 .r1) ∧
      decode 0x68F00081 = .ok (.mvwLoad .r15 8 .r1) ∧ decode 0x6A2FFFF1 = .ok (.mvwStore .r2 0xFFFF .r1) := by
  decide

/-- R131 to R138, section 2.8 of the vectors. -/
theorem test_decode_sets :
    decode 0x71010002 = .ok (.seq (.reg .r1) .r2) ∧ decode 0x72000013 = .ok (.sne (.imm 1) .r3) ∧
      decode 0x74000013 = .ok (.sgt (.imm 1) .r3) ∧ decode 0x76000013 = .ok (.sge (.imm 1) .r3) ∧
      decode 0x78000013 = .ok (.slt (.imm 1) .r3) ∧ decode 0x7A000013 = .ok (.sle (.imm 1) .r3) ∧
      decode 0x7C000013 = .ok (.sov (.imm 1) .r3) ∧ decode 0x7E000015 = .ok (.scr (.imm 1) .r5) := by
  decide

/-- R112 to R121, section 2.7 of the vectors. -/
theorem test_decode_alu :
    decode 0x81210002 = .ok (.add .r2 (.reg .r1) .r2) ∧ decode 0x82100011 = .ok (.sub .r1 (.imm 1) .r1) ∧
      decode 0x90500046 = .ok (.rsl .r5 (.imm 4) .r6) ∧ decode 0x92500047 = .ok (.rsa .r5 (.imm 4) .r7) ∧
      decode 0xA1120003 = .ok (.lsh .r1 (.reg .r2) .r3) ∧ decode 0xB0100049 = .ok (.exb .r1 (.imm 4) .r9) ∧
      decode 0xC0200013 = .ok (.and .r2 (.imm 1) .r3) ∧ decode 0xD1120003 = .ok (.orr .r1 (.reg .r2) .r3) ∧
      decode 0xE01FFFF2 = .ok (.xor .r1 (.imm 0xFFFF) .r2) ∧ decode 0xF1120002 = .ok (.cnt .r1 (.reg .r2) .r2) := by
  decide

/-- R58, the vectors' reserved words and one of the highest type code. -/
theorem test_decode_reserved :
    decode 0x02000000 = .error .reservedEncoding ∧ decode 0x24000000 = .error .reservedEncoding ∧
      decode 0x32000040 = .error .reservedEncoding ∧ decode 0x6C000000 = .error .reservedEncoding ∧
      decode 0x84000000 = .error .reservedEncoding ∧ decode 0x94000000 = .error .reservedEncoding ∧
      decode 0xA2000000 = .error .reservedEncoding ∧ decode 0xFE000000 = .error .reservedEncoding := by
  decide

/-- R57, the vectors' non-canonical words, and the Timer's I<28..31>. -/
theorem test_decode_noncanonical :
    decode 0x00000001 = .error .noncanonical ∧ decode 0x1F700010 = .error .noncanonical ∧
      decode 0x1E000031 = .error .noncanonical ∧ decode 0x21000000 = .error .noncanonical ∧
      decode 0x30000041 = .error .noncanonical ∧ decode 0x63100002 = .error .noncanonical ∧
      decode 0x62100012 = .error .noncanonical ∧ decode 0x70100014 = .error .noncanonical ∧
      decode 0x71010012 = .error .noncanonical ∧ decode 0x81210012 = .error .noncanonical ∧
      decode 0x40000001 = .error .noncanonical ∧ decode 0x50000001 = .error .noncanonical := by
  decide

/-- R51, R4: the host's numbering of a table word is that of W. -/
theorem test_decode_table_word : decodeTableWord 32 0x82C0008C = some (.sub .r12 (.imm 8) .r12) := by decide

/-! ### Pseudo-instructions: the words of sections 1 and 2.5 -/

theorem test_words_push_pop :
    (Pseudo.psb (.reg .r3)).words = some [0x82C0008C, 0x6630000C] ∧
      (Pseudo.psw (.reg .r1)).words = some [0x82C0010C, 0x6A10000C] ∧
      (Pseudo.ppb .r2).words = some [0x64C00002, 0x80C0008C] ∧
      (Pseudo.ppw .r4).words = some [0x68C00004, 0x80C0010C] ∧ (Pseudo.psb (.imm 0x51)).words = none := by
  decide

theorem test_words_call_return :
    (Pseudo.cal (.imm 0x11CE)).words = some [0x82C0010C, 0x6AF0000C, 0x1E011CE0] ∧
      Pseudo.ret.words = some [0x68C0000F, 0x80C0010C] ∧ Pseudo.nop.words = some [0x62000000] := by
  decide

theorem test_words_not_compare_test :
    (Pseudo.not .r1 .r2).words = some [0xE01FFFF2] ∧ (Pseudo.cmp (.reg .r1) (.reg .r2)).words = some [0x83120002] ∧
      (Pseudo.tst (.reg .r1) (.reg .r2)).words = some [0xC1120002] ∧
      ((Pseudo.cmp (.reg .r1) (.reg .r2)).expandAs .r0).map (List.map encode) = some [0x83120000] := by
  decide

/-- R101, R125: the fifth form puts the register first. -/
theorem test_word_fifth_alu_form : encode (assembleAlu .sub (.immReg 8 .r12)) = 0x82C0008C := by decide

/-! ### One step -/

/-- The state after reset with r1 and r2 given. -/
def start (r1 r2 : Word) : State := { State.reset with regs := { State.reset.regs with r1 := r1, r2 := r2 } }

/-- The state after reset with the flags given. -/
def flagged (z n c o : Bool) : State := { State.reset with flags := ⟨z, n, c, o⟩ }

/-- The instruction answers a next state that passes a check. -/
def gives (i : Instr) (s : State) (check : State → Bool) : Bool :=
  match exec i s with
  | .next t => check t
  | .fault _ => false
  | .refused _ => false

/-- R70's example: the stop mark is set and pc stays. -/
theorem test_hlt : gives .hlt { start 0x1234 0 with pc := 7 } (fun t => t.halted && t.pc == 7 && t.regs.r1 == 0x1234) = true := by
  decide

theorem test_jeq : gives (.jeq (.reg .r1)) { start 0x200 0 with pc := 0x10, flags := ⟨true, false, false, false⟩ }
    (fun t => t.pc == 0x200) = true := by decide
theorem test_jeq_not : gives (.jeq (.reg .r1)) { start 0x200 0 with pc := 0x10 } (fun t => t.pc == 0x11) = true := by decide
theorem test_jne : gives (.jne (.imm 2)) { flagged false true true true with pc := 4 } (fun t => t.pc == 2) = true := by decide
theorem test_jgt_not : gives (.jgt (.imm 0x100)) { flagged false true false false with pc := 4 } (fun t => t.pc == 5) = true := by decide
theorem test_jge : gives (.jge (.imm 0x41F9)) { flagged true true false false with pc := 4 } (fun t => t.pc == 0x41F9) = true := by decide
theorem test_jge_not : gives (.jge (.imm 0x41F9)) { flagged false true false false with pc := 4 } (fun t => t.pc == 5) = true := by decide
theorem test_jlt : gives (.jlt (.imm 6)) { flagged false true false false with pc := 4 } (fun t => t.pc == 6) = true := by decide
theorem test_jle_not : gives (.jle (.imm 6)) { flagged false false true true with pc := 4 } (fun t => t.pc == 5) = true := by decide
theorem test_jov : gives (.jov (.imm 6)) { flagged false false false true with pc := 4 } (fun t => t.pc == 6) = true := by decide
theorem test_jmp : gives (.jmp (.imm 3)) { flagged false false false false with pc := 4 } (fun t => t.pc == 3) = true := by decide

/-- R18: the pc wraps. -/
theorem test_pc_wraps : gives (.movReg .r0 .r0) { State.reset with pc := 0xFFFF } (fun t => t.pc == 0) = true := by decide

/-- Section 2.3: the state after reset is in kernel mode (log 8). -/
theorem test_ats : gives .ats State.reset (fun t => t.special.atomic && t.special.kernel) = true := by decide
theorem test_ate : gives .ate { State.reset with special := ⟨true, true⟩ } (fun t => !t.special.atomic && t.special.kernel) = true := by decide

/-- R105: the operating system sees the type and r8 to r10. -/
theorem test_int_arguments :
    (envCall 4 { State.reset with regs := { State.reset.regs with r8 := 0x40, r9 := 6, r10 := 9 } }).arg2 = 6 ∧
      gives (.int (.imm 4)) { State.reset with pc := 2 } (fun t => t.pc == 3) = true := by decide

theorem test_mov_imm : gives (.movImm 0xFFFF .r1) State.reset (fun t => t.regs.r1 == 0xFFFF && !t.flags.n) = true := by decide
theorem test_mov_imm_r0 : gives (.movImm 0x1234 .r0) State.reset (fun t => t.regs == State.reset.regs && t.pc == 1) = true := by decide
theorem test_mov_reg : gives (.movReg .r1 .r8) (start 0x300 0) (fun t => t.regs.r8 == 0x300) = true := by decide
theorem test_mov_flags_register :
    let v := readReg .first .r14 (flagged true false true false)
    v.getLsbD 0 = true ∧ v.getLsbD 1 = false ∧ v.getLsbD 2 = true ∧ v.getLsbD 3 = false := by
  simp only [readReg, readFlagsRegister, BitVec.getLsbD_append, flagged]
  decide

theorem test_mvb_load : gives (.mvbLoad .r1 2 .r4) (writeByte 0x102 0x34 (start 0x100 0)) (fun t => t.regs.r4 == 0x34) = true := by decide
theorem test_mvb_load_extensions :
    extendByteAs .zero 0xAB00 0x80 = 0x0080 ∧ extendByteAs .sign 0xAB00 0x80 = 0xFF80 ∧ extendByteAs .keep 0xAB00 0x80 = 0xAB80 := by
  decide
theorem test_mvb_store : gives (.mvbStore .r2 2 .r1) (start 0x100 0x1234) (fun t => t.mem == [(0x102, 0x34)]) = true := by decide

/-- Sections 2.4 and R33, under both byte orders. -/
theorem test_mvw_load :
    readWordAs false (writeByte 0x101 0x12 (writeByte 0x100 0x34 State.reset)) 0x100 = 0x1234 ∧
      readWordAs true (writeByte 0x101 0x12 (writeByte 0x100 0x34 State.reset)) 0x100 = 0x3412 := by decide
theorem test_mvw_store :
    (writeWordAs false 0x100 0x1234 State.reset).mem = [(0x100, 0x34), (0x101, 0x12)] ∧
      (writeWordAs true 0x100 0x1234 State.reset).mem = [(0x100, 0x12), (0x101, 0x34)] := by decide
theorem test_mvw_store_wraps :
    gives (.mvwStore .r2 0 .r1) (start 0xFFFF 0x1234) (fun t => t.mem.map Prod.fst == [0x0000, 0xFFFF]) = true := by decide

/-- R32, R33: MVW at 0x0100 with 0x0101 unmapped. -/
theorem test_unmapped : whenMapped (fun a => a != 0x101) (wordAddresses 0x100) State.reset = .fault (.unmapped 0x101) := by rfl

/-- R43: with one memory the byte 3 above a loaded instruction is code and the byte 4 above is not. -/
theorem test_store_to_code :
    storeAs true (fun _ => true) [(0x10, 0)] [0x13] State.reset = .refused .storeToCode ∧
      storeAs true (fun _ => true) [(0x10, 0)] [0x14] State.reset = .next State.reset := ⟨rfl, rfl⟩

theorem test_seq : gives (.seq (.reg .r1) .r2) { start 0xAA 0x55 with flags := ⟨true, false, false, false⟩ } (fun t => t.regs.r2 == 0xAA) = true := by decide
theorem test_seq_not : gives (.seq (.reg .r1) .r2) (start 0xAA 0x55) (fun t => t.regs.r2 == 0x55) = true := by decide
theorem test_sne : gives (.sne (.imm 1) .r4) State.reset (fun t => t.regs.r4 == 1) = true := by decide
theorem test_sgt_not : gives (.sgt (.imm 1) .r4) (flagged false true false false) (fun t => t.regs.r4 == 0) = true := by decide
theorem test_sge : gives (.sge (.imm 1) .r4) (flagged true false false false) (fun t => t.regs.r4 == 1) = true := by decide
theorem test_slt : gives (.slt (.imm 1) .r4) (flagged false true false false) (fun t => t.regs.r4 == 1) = true := by decide
theorem test_sle_not : gives (.sle (.imm 1) .r4) State.reset (fun t => t.regs.r4 == 0) = true := by decide
theorem test_sov : gives (.sov (.imm 1) .r4) (flagged false false false true) (fun t => t.regs.r4 == 1) = true := by decide
theorem test_scr : gives (.scr (.imm 1) .r4) (flagged false false true false) (fun t => t.regs.r4 == 1) = true := by decide
theorem test_scr_not : gives (.scr (.imm 1) .r4) (flagged true true false true) (fun t => t.regs.r4 == 0) = true := by decide

/-- Section 2.7. -/
theorem test_add_wraps : gives (.add .r1 (.imm 1) .r2) (start 0xFFFF 0) (fun t => t.regs.r2 == 0 && t.flags == ⟨true, false, true, false⟩) = true := by decide
theorem test_add_overflows : gives (.add .r1 (.imm 0xFFFF) .r2) (start 0x8000 0) (fun t => t.regs.r2 == 0x7FFF && t.flags == ⟨false, false, true, true⟩) = true := by decide
theorem test_sub_destination_is_source : gives (.sub .r1 (.reg .r2) .r2) (start 3 5) (fun t => t.regs.r2 == 0xFFFE && t.flags.n && !t.flags.z && !t.flags.o) = true := by decide
theorem test_sub_carry_both_ways :
    subCarryAs .borrow 0x7FFF 0xFFFF = true ∧ subCarryAs .notBorrow 0x7FFF 0xFFFF = false ∧ subCarryAs .borrow 3 3 = false ∧
      subCarryAs .notBorrow 3 3 = true ∧ subOverflow 0x7FFF 0xFFFF = true := by decide
theorem test_rsl : shiftRightLogicalAs .saturate 0xFF0C 4 = 0x0FF0 ∧ shiftRightLogicalAs .mod16 0x8000 15 = 1 := by decide
theorem test_rsl_sixteen : shiftRightLogicalAs .mod16 0x8000 16 = 0x8000 ∧ shiftRightLogicalAs .saturate 0x8000 16 = 0 := by decide
theorem test_rsa : shiftRightArithAs .saturate 0xFF0C 4 = 0xFFF0 ∧ shiftRightArithAs .mod16 0x7FFF 15 = 0 := by decide
theorem test_rsa_sixteen : shiftRightArithAs .mod16 0x8000 16 = 0x8000 ∧ shiftRightArithAs .saturate 0x8000 16 = 0xFFFF := by decide
theorem test_lsh : gives (.lsh .r1 (.imm 8) .r8) (start 0x00F3 0) (fun t => t.regs.r8 == 0xF300 && t.flags.n) = true := by decide
theorem test_lsh_fifteen : shiftLeftAs .saturate 0xFFFF 15 = 0x8000 ∧ shiftLeftAs .saturate 1 16 = 0 ∧ shiftLeftAs .mod16 1 16 = 1 := by decide
theorem test_exb : gives (.exb .r1 (.imm 4) .r9) (start 0x00F3 0) (fun t => t.regs.r9 == 1) = true := by decide
theorem test_exb_sixteen : extractBitAs .mod16 1 16 = 1 ∧ extractBitAs .zero 1 16 = 0 ∧ extractBitAs .zero 0x8000 15 = 1 := by decide
theorem test_and : gives (.and .r1 (.imm 0x0F0F) .r2) (start 0x00F3 0) (fun t => t.regs.r2 == 3) = true := by decide
theorem test_orr : gives (.orr .r1 (.imm 0x0F0F) .r2) (start 0x00F3 0) (fun t => t.regs.r2 == 0x0FFF) = true := by decide
theorem test_xor : gives (.xor .r1 (.imm 0x0F0F) .r2) (start 0x00F3 0) (fun t => t.regs.r2 == 0x0FFC) = true := by decide
theorem test_cnt : gives (.cnt .r1 (.reg .r2) .r2) (start 0x00F3 0x7777) (fun t => t.regs.r2 == 6) = true := by decide
theorem test_cnt_all : gives (.cnt .r1 (.imm 0) .r2) (start 0xFFFF 0) (fun t => t.regs.r2 == 16 && !t.flags.z && !t.flags.n) = true := by decide

/-- P6, P7 of section 3: user mode, and the end of the program. -/
theorem test_program_p6 : step { State.reset.withFetchWord 32 0x20000000 with special := ⟨false, false⟩ } = .fault (.privilegeViolation "ATS") := by rfl
theorem test_program_p7 : ∃ t, step (State.reset.withFetchWord 32 0x60000011) = .next t ∧ t.regs.r1 = 1 ∧ step t = .fault (.fetchUnmapped 1) :=
  ⟨_, rfl, rfl, rfl⟩

/-- Sections 1, 2.2, 2.4, 2.5 and 2.7 of the vectors: S5, CAL's second word, `JMP r15`, `MOV r15 r1`. -/
theorem test_read_r15_refused :
    step (State.reset.withFetchWord 32 0x68F00081) = .refused .readR15 ∧
      step (State.reset.withFetchWord 32 0x6AF0000C) = .refused .readR15 ∧
      step (State.reset.withFetchWord 32 0x1FF00000) = .refused .readR15 ∧
      step (State.reset.withFetchWord 32 0x62F00001) = .refused .readR15 := ⟨rfl, rfl, rfl, rfl⟩

/-- `MOV r1 r13`, `MOV r1 r14`, RET's first word, `ADD r1 $0x1 r15`, and `SEQ $0x1 r14` with a false condition (R130). -/
theorem test_write_special_refused :
    step (State.reset.withFetchWord 32 0x6210000D) = .refused .writeR13 ∧
      step (State.reset.withFetchWord 32 0x6210000E) = .refused .writeR14 ∧
      step (State.reset.withFetchWord 32 0x68C0000F) = .refused .writeR15 ∧
      step (State.reset.withFetchWord 32 0x8010001F) = .refused .writeR15 ∧
      step (State.reset.withFetchWord 32 0x7000001E) = .refused .writeR14 := ⟨rfl, rfl, rfl, rfl, rfl⟩

/-- R121: CNT does not read Reg B; R149: an r15 in a Timer word is not looked at; a store's base r14 is read. -/
theorem test_operands_not_refused :
    operandRefusal (.cnt .r1 (.reg .r15) .r2) = none ∧
      step (State.reset.withFetchWord 32 0x51F00000) = .refused .tmr ∧ operandRefusal (.mvwStore .r1 0 .r14) = none := ⟨rfl, rfl, rfl⟩

/-- R45: two words at the load base 0x0200. -/
theorem test_load_program : (startProgram 0x200 [0x60000011, 0]).imem = [(0x200, 0x60000011), (0x201, 0)] := by rfl

/-! ### Witnesses: states and operands that meet each statement's hypotheses -/

/-- Reset with one word loaded where the next step fetches. -/
def loaded (w : Nat) : State := State.reset.withFetchWord 32 w

/-- `MOV $0x5 r3`. -/
theorem witness_runs_mov : Runs (loaded 0x60000053) (.movImm 5 .r3) := ⟨rfl, 0x60000053, rfl, rfl⟩

/-- An instruction that runs, and one of each refused operand. -/
theorem witness_StepRunsTheDecodedInstruction :
    (∃ t, Runs (loaded 0x60000053) (.movImm 5 .r3) ∧ exec (.movImm 5 .r3) (loaded 0x60000053) = .next t ∧ t.inFlight = [] ∧
      refusedOperand (.movImm 5 .r3) = none) ∧
    (Runs (loaded 0x62F00001) (.movReg .r15 .r1) ∧ refusedOperand (.movReg .r15 .r1) = some .readR15) ∧
    (Runs (loaded 0x6210000D) (.movReg .r1 .r13) ∧ refusedOperand (.movReg .r1 .r13) = some .writeR13) ∧
    (Runs (loaded 0x6210000E) (.movReg .r1 .r14) ∧ refusedOperand (.movReg .r1 .r14) = some .writeR14) ∧
    (Runs (loaded 0x6210000F) (.movReg .r1 .r15) ∧ refusedOperand (.movReg .r1 .r15) = some .writeR15) :=
  ⟨⟨_, witness_runs_mov, rfl, rfl, rfl⟩, ⟨⟨rfl, 0x62F00001, rfl, rfl⟩, rfl⟩, ⟨⟨rfl, 0x6210000D, rfl, rfl⟩, rfl⟩,
    ⟨⟨rfl, 0x6210000E, rfl, rfl⟩, rfl⟩, ⟨⟨rfl, 0x6210000F, rfl, rfl⟩, rfl⟩⟩

theorem witness_FetchOutsideTheProgramFaults :
    State.reset.halted = false ∧ Cells.get State.reset.imem State.reset.pc.toNat = none := ⟨rfl, rfl⟩

theorem witness_MisalignedFetchIsReportedFirst :
    ({ State.reset with pc := 1 } : State).pc.toNat % 4 ≠ 0 ∧
      (State.reset.pc.toNat % 4 = 0 ∧ Cells.get State.reset.imem State.reset.pc.toNat = none) ∧
      ∃ w, (loaded 0).pc.toNat % 4 = 0 ∧ Cells.get (loaded 0).imem (loaded 0).pc.toNat = some w :=
  ⟨by decide, ⟨rfl, rfl⟩, 0, rfl, rfl⟩

theorem witness_HltStopsAndChangesNothingElse :
    Runs (loaded 0) .hlt ∧ ({ State.reset with halted := true } : State).halted = true := ⟨⟨rfl, 0, rfl, rfl⟩, rfl⟩

/-- One instance for each direction: HLT halts, MOV does not. -/
theorem witness_OnlyHltHalts :
    (∃ t, Runs (loaded 0) .hlt ∧ stepAs .refuse (loaded 0) = .next t ∧ t.halted = true) ∧
      ∃ t, Runs (loaded 0x60000053) (.movImm 5 .r3) ∧ stepAs .refuse (loaded 0x60000053) = .next t ∧ t.halted = false :=
  ⟨⟨_, ⟨rfl, 0, rfl, rfl⟩, rfl, rfl⟩, ⟨_, witness_runs_mov, rfl, rfl⟩⟩

theorem witness_StepRefusesWordsThatAreNoInstruction :
    ((loaded 0x02000000).halted = false ∧ Cells.get (loaded 0x02000000).imem 0 = some 0x02000000 ∧
      decode 0x02000000 = .error .reservedEncoding) ∧
    ((loaded 1).halted = false ∧ Cells.get (loaded 1).imem 0 = some 1 ∧ decode 1 = .error .noncanonical) :=
  ⟨⟨rfl, rfl, by decide⟩, ⟨rfl, rfl, by decide⟩⟩

theorem witness_DecodeOfEncodeIsTheInstruction : (Instr.tmr 7 true .r15 0xFFFF).wellFormed = true := by decide

theorem witness_EncodeOfDecodeIsTheWord : decode 0x5FFFFFF0 = .ok (.tmr 7 true .r15 0xFFFF) := by decide

/-- The first and the last listed words, canonical and not. -/
theorem witness_CanonicalWordsAreExactlyTheInstructions :
    (¬ Unlisted 0x00000000 ∧ (0x00000000 : InstrWord) &&& unusedBits 0x00000000 = 0) ∧
      (¬ Unlisted 0xF1FF000F ∧ (0xF1FF000F : InstrWord) &&& unusedBits 0xF1FF000F = 0) ∧
      (¬ Unlisted 0xF1FF001F ∧ (0xF1FF001F : InstrWord) &&& unusedBits 0xF1FF001F ≠ 0) := by
  unfold Unlisted
  decide

theorem witness_DecodedWordsMatchTheOpcodeTable : decode 0x30000040 = .ok (.int (.imm 4)) := by decide

theorem witness_JumpWordsAsTheFormatSays : (⟨.jmp, 7, fun _ => true⟩ : CondRow (Operand → Instr)) ∈ jumpTable := by
  simp [jumpTable]

theorem witness_SetWordsAsTheFormatSays : (⟨.scr, 7, fun f => f.c⟩ : CondRow (Operand → Reg → Instr)) ∈ setTable := by
  simp [setTable]

theorem witness_AluWordsAsTheFormatSays : ((.cnt, 15, 0) : (Reg → Operand → Reg → Instr) × Nat × Nat) ∈ aluTable := by
  simp [aluTable]

theorem witness_RegistersReadAsSourceOperands : Stored .r1 ∧ Stored .r12 := by simp [Stored]

theorem witness_ZeroRegisterDiscardsWrites :
    destination (.movImm 0x1234 .r0) = some .r0 ∧ isAlu (.movImm 0x1234 .r0) = false ∧
      destination (.sub .r1 (.reg .r2) .r0) = some .r0 := ⟨rfl, rfl, rfl⟩

/-- `MOV r1 r15`. -/
theorem witness_WriteOfR15TransfersControl : Runs (loaded 0x6210000F) (.movReg .r1 .r15) ∧ (loaded 0x6210000F).inFlight = [] :=
  ⟨⟨rfl, 0x6210000F, rfl, rfl⟩, rfl⟩

/-- A write due at the end of this step, and one due a step later. -/
theorem witness_WriteInFlightTakesEffectWhenDue :
    (∃ t, Runs { loaded 0x60000053 with inFlight := [(0, 9)] } (.movImm 5 .r3) ∧
      step { loaded 0x60000053 with inFlight := [(0, 9)] } = .next t ∧ t.pc = 9) ∧
    (∃ t, Runs { loaded 0x60000053 with inFlight := [(1, 9)] } (.movImm 5 .r3) ∧
      step { loaded 0x60000053 with inFlight := [(1, 9)] } = .next t ∧ t.pc = 1) ∧
    destination (.movImm 5 .r3) ≠ some .r15 ∧ Instr.movImm 5 .r3 ≠ .hlt :=
  ⟨⟨_, ⟨rfl, 0x60000053, rfl, rfl⟩, rfl, rfl⟩, ⟨_, ⟨rfl, 0x60000053, rfl, rfl⟩, rfl, rfl⟩, by decide, by decide⟩

theorem witness_JumpsFollowTheirConditions : (⟨.jeq, 0, fun f => f.z⟩ : CondRow (Operand → Instr)) ∈ jumpTable := by
  simp [jumpTable]

/-- 3 and 5: no overflow. -/
theorem witness_CompareThenJumpFollowsTheSignedOrder :
    ∃ t, exec (.sub .r1 (.reg .r2) .r0) (start 3 5) = .next t ∧ t.flags.o = false := ⟨_, rfl, by decide⟩

theorem witness_AtomicStartAndEndWriteTheAtomicBit :
    State.reset.special.kernel = true ∧ ({ State.reset with special := ⟨true, false⟩ } : State).special.kernel = false :=
  ⟨rfl, rfl⟩

theorem witness_AtomicInUserModeIsAPrivilegeViolation :
    ({ State.reset with special := ⟨false, false⟩ } : State).special.kernel = false := rfl

theorem witness_AtomicIsABitAndNotACounter : State.reset.special.kernel = true ∧ State.reset.inFlight = [] := ⟨rfl, rfl⟩

theorem witness_StoreThenLoadReturnsTheWord : (Stored .r1 ∨ (Reg.r1 = .r0)) ∧ (Stored .r0 ∨ (Reg.r0 = .r0)) := by
  simp [Stored]

/-- A word at the top of memory, whose second byte is at 0, and a byte that holds a value. -/
theorem witness_AccessToAnUnmappedByteFaults :
    Cells.get (writeByte 0xFFFF 0x12 State.reset).mem (0xFFFF : Word).toNat = some 0x12 ∧
      (fun _ : Word => true) 0xFFFF = true ∧ (fun _ : Word => true) (0xFFFF + 1) = true ∧
      (fun a : Word => a != 0xFFFF) 0xFFFF = false ∧
      (fun a : Word => a != 0) 0xFFFF = true ∧ (fun a : Word => a != 0) (0xFFFF + 1) = false := by decide

/-- The first and the last byte of a loaded instruction, and the first byte after it. -/
theorem witness_StoreToCodeIsRefusedWhenUnified :
    (∃ a ∈ ([0x10] : List Word), ∃ k < 4, ∃ w : InstrWord, Cells.get [(0x10, 0)] (a - BitVec.ofNat 16 k).toNat = some w) ∧
      (∃ a ∈ ([0x13] : List Word), ∃ k < 4, ∃ w : InstrWord, Cells.get [(0x10, 0)] (a - BitVec.ofNat 16 k).toNat = some w) ∧
      ∀ a ∈ ([0x14] : List Word), ∀ k < 4, Cells.get [(0x10, (0 : InstrWord))] (a - BitVec.ofNat 16 k).toNat = none :=
  ⟨⟨0x10, by simp, 0, by decide, 0, rfl⟩, ⟨0x13, by simp, 3, by decide, 0, rfl⟩, fun a ha k hk => by
    obtain rfl := List.mem_singleton.mp ha
    interval_cases k <;> rfl⟩

theorem witness_SetsWriteTheSourceWhenTheConditionHolds :
    (⟨.seq, 0, fun f => f.z⟩ : CondRow (Operand → Reg → Instr)) ∈ setTable ∧ (flagged true false false false).flags.z = true ∧
      State.reset.flags.z = false := ⟨by simp [setTable], rfl, rfl⟩

/-- The first and the last bit. -/
theorem witness_BitwiseResults : (0 : Nat) < 16 ∧ (15 : Nat) < 16 := by decide

/-- A plain destination, and the stack pointer itself. -/
theorem witness_PushThenPopWordRestores :
    State.reset.inFlight = [] ∧ Reg.r4 ≠ .r15 ∧ Stored .r4 ∧ Reg.r4 ≠ .r12 ∧ Reg.r12 ≠ .r15 := by simp [State.reset, Stored]

theorem witness_PushThenPopByteRestoresTheLowerHalf :
    State.reset.inFlight = [] ∧ Reg.r2 ≠ .r15 ∧ Stored .r2 ∧ Reg.r2 ≠ .r12 ∧ Reg.r12 ≠ .r15 := by simp [State.reset, Stored]

theorem witness_CallSavesTheProgramCounterAndJumps : State.reset.inFlight = [] := rfl

/-- A state whose stack top is what a CAL at 0x0040 has pushed. -/
theorem witness_ReturnReachesTheCallerExactlyUnderTheOffsetRelation :
    let s := writeWord 0 (0x40 + 1 + Config.pcReadOffset) State.reset
    readWord s s.regs.r12 = 0x40 + 1 + Config.pcReadOffset := readWordAs_writeWordAs _ _ _ _

/-- The machine's step, and one that runs `MOV r1 r15`. -/
theorem witness_EveryStepKeepsTheInvariant :
    (∃ t, Inv (loaded 0x60000053) ∧ step (loaded 0x60000053) = .next t) ∧
      ∃ t, Inv (loaded 0x6210000F) ∧ stepAs .run (loaded 0x6210000F) = .next t :=
  ⟨⟨_, ⟨rfl, rfl, fun _ h => absurd h List.not_mem_nil, List.Pairwise.nil⟩, rfl⟩,
    ⟨_, ⟨rfl, rfl, fun _ h => absurd h List.not_mem_nil, List.Pairwise.nil⟩, rfl⟩⟩

/-- A step, and a program of two words whose base is the last address, so that the second is at 0. -/
theorem witness_NoStepChangesInstructionMemory :
    (∃ t, stepAs .refuse (loaded 0x60000053) = .next t) ∧ ([0x60000011, 0] : List InstrWord).length ≤ 65536 ∧
      ([0x60000011, 0] : List InstrWord)[1]? = some 0 ∧
      ∀ k < ([0x60000011, 0] : List InstrWord).length, (1 : Word) ≠ 0xFFFF + BitVec.ofNat 16 k * Config.pcStep :=
  ⟨⟨_, rfl⟩, by decide, rfl, by decide⟩

theorem witness_FlagsChangeOnlyByAluInstructions :
    ∃ t, Runs (loaded 0x60000053) (.movImm 5 .r3) ∧ stepAs .refuse (loaded 0x60000053) = .next t ∧ isAlu (.movImm 5 .r3) = false ∧
      isInt (.movImm 5 .r3) = false ∧ (OperandPolicy.refuse = .refuse ∨ destination (.movImm 5 .r3) ≠ some .r14) :=
  ⟨_, witness_runs_mov, rfl, rfl, rfl, .inl rfl⟩

/-- An instruction that writes no special bit, and ATS. -/
theorem witness_SpecialBitsChangeOnlyByTheirInstructions :
    (∃ t, Runs (loaded 0x60000053) (.movImm 5 .r3) ∧ stepAs .refuse (loaded 0x60000053) = .next t) ∧
      (∃ t, Runs (loaded 0x20000000) .ats ∧ stepAs .refuse (loaded 0x20000000) = .next t) ∧
      isInt .ats = false ∧ (OperandPolicy.refuse = .refuse ∨ destination .ats ≠ some .r14) ∧ Instr.movImm 5 .r3 ≠ .ats ∧ Instr.movImm 5 .r3 ≠ .ate :=
  ⟨⟨_, witness_runs_mov, rfl⟩, ⟨_, ⟨rfl, 0x20000000, rfl, rfl⟩, rfl⟩, rfl, .inl rfl, by decide, by decide⟩

/-- A byte store, a word store, and an instruction that stores nothing. -/
theorem witness_MemoryChangesOnlyByStores :
    (∃ t, Runs (loaded 0x66200021) (.mvbStore .r2 2 .r1) ∧ stepAs .refuse (loaded 0x66200021) = .next t) ∧
      (∃ t, Runs (loaded 0x6A2FFFF1) (.mvwStore .r2 0xFFFF .r1) ∧ stepAs .refuse (loaded 0x6A2FFFF1) = .next t) ∧
      ∃ t, Runs (loaded 0x60000053) (.movImm 5 .r3) ∧ stepAs .refuse (loaded 0x60000053) = .next t :=
  ⟨⟨_, ⟨rfl, 0x66200021, rfl, rfl⟩, rfl⟩, ⟨_, ⟨rfl, 0x6A2FFFF1, rfl, rfl⟩, rfl⟩, ⟨_, witness_runs_mov, rfl⟩⟩

theorem witness_RegistersChangeOnlyAsDestinations :
    ∃ t, Runs (loaded 0x60000053) (.movImm 5 .r3) ∧ stepAs .refuse (loaded 0x60000053) = .next t ∧ isInt (.movImm 5 .r3) = false ∧
      destination (.movImm 5 .r3) ≠ some .r12 := ⟨_, witness_runs_mov, rfl, rfl, by decide⟩

end Sys2Proof.Tests
end

section
/-! Proofs, family 10_state: what `exec` and a step can do, the program load, and the statements about the state. -/

namespace Sys2Proof.Machine

open Sys2Proof.Claims

/-! ### Fields after the shared operations -/

@[simp] theorem jumpWhen_regs (c : Bool) (a : Operand) (s : State) : (jumpWhen c a s).regs = s.regs := by
  cases c <;> rfl
@[simp] theorem jumpWhen_cycleCounter (c : Bool) (a : Operand) (s : State) :
    (jumpWhen c a s).cycleCounter = s.cycleCounter := by
  cases c <;> rfl
@[simp] theorem jumpWhen_flags (c : Bool) (a : Operand) (s : State) : (jumpWhen c a s).flags = s.flags := by
  cases c <;> rfl
@[simp] theorem jumpWhen_special (c : Bool) (a : Operand) (s : State) : (jumpWhen c a s).special = s.special := by
  cases c <;> rfl
@[simp] theorem jumpWhen_inFlight (c : Bool) (a : Operand) (s : State) : (jumpWhen c a s).inFlight = s.inFlight := by
  cases c <;> rfl
@[simp] theorem jumpWhen_halted (c : Bool) (a : Operand) (s : State) : (jumpWhen c a s).halted = s.halted := by
  cases c <;> rfl
@[simp] theorem jumpWhen_mem (c : Bool) (a : Operand) (s : State) : (jumpWhen c a s).mem = s.mem := by
  cases c <;> rfl
@[simp] theorem jumpWhen_imem (c : Bool) (a : Operand) (s : State) : (jumpWhen c a s).imem = s.imem := by
  cases c <;> rfl
@[simp] theorem jumpWhen_trapTimer (c : Bool) (a : Operand) (s : State) : (jumpWhen c a s).trapTimer = s.trapTimer := by
  cases c <;> rfl
@[simp] theorem jumpWhen_draws (c : Bool) (a : Operand) (s : State) : (jumpWhen c a s).draws = s.draws := by
  cases c <;> rfl

@[simp] theorem writeWord_regs (a v : Word) (s : State) : (writeWord a v s).regs = s.regs := rfl
@[simp] theorem writeWord_cycleCounter (a v : Word) (s : State) : (writeWord a v s).cycleCounter = s.cycleCounter := rfl
@[simp] theorem writeWord_flags (a v : Word) (s : State) : (writeWord a v s).flags = s.flags := rfl
@[simp] theorem writeWord_special (a v : Word) (s : State) : (writeWord a v s).special = s.special := rfl
@[simp] theorem writeWord_pc (a v : Word) (s : State) : (writeWord a v s).pc = s.pc := rfl
@[simp] theorem writeWord_inFlight (a v : Word) (s : State) : (writeWord a v s).inFlight = s.inFlight := rfl
@[simp] theorem writeWord_halted (a v : Word) (s : State) : (writeWord a v s).halted = s.halted := rfl
@[simp] theorem writeWord_imem (a v : Word) (s : State) : (writeWord a v s).imem = s.imem := rfl
@[simp] theorem writeWord_trapTimer (a v : Word) (s : State) : (writeWord a v s).trapTimer = s.trapTimer := rfl
@[simp] theorem writeWord_draws (a v : Word) (s : State) : (writeWord a v s).draws = s.draws := rfl

@[simp] theorem callEnvironment_imem (type : Word) (s : State) : (callEnvironment type s).imem = s.imem := rfl

@[simp] theorem readByte_advance (s : State) (a : Word) : readByte (advance s) a = readByte s a := rfl

/-- The end of a step moves no byte of data memory. -/
@[simp] theorem readByte_tick_settleR15 (s : State) (a : Word) : readByte (tick (settleR15 s)) a = readByte s a :=
  readByte_of_mem_eq (by simp) a

/-- An ALU result for r0 is discarded; the flags are written (R11, R111). -/
@[simp] theorem aluWriteBack_zero (r : Word) (c o : Bool) (s : State) :
    aluWriteBack .r0 r c o s = advance { s with flags := resultFlags r c o } := by
  simp [aluWriteBack]

/-! ### What an instruction can do -/

/-- The three things an instruction with destination `rd` can do: a Set with a false condition keeps it (R130), a Move or a
Set writes it, an ALU instruction writes it and the flags (R110, R111). -/
inductive WritesBack (i : Instr) (rd : Reg) (s : State) : State → Prop
  | keep (ha : isAlu i = false) : WritesBack i rd s (advance s)
  | write (v : Word) (ha : isAlu i = false) : WritesBack i rd s (advance (writeReg rd v s))
  | alu (r : Word) (c o : Bool) (ha : isAlu i = true) : WritesBack i rd s (aluWriteBack rd r c o s)

/-- What `exec` can make of a state, family by family. -/
inductive Effect (i : Instr) (s : State) : State → Prop
  | writeBack (rd : Reg) (t : State) (hd : destination i = some rd) (ht : WritesBack i rd s t) : Effect i s t
  | halt (hi : i = .hlt) : Effect i s { s with halted := true }
  | jump (cond : Bool) (target : Operand) (hi : i ≠ .hlt) : Effect i s (jumpWhen cond target s)
  | atomicBit (b : Bool) (hi : i = .ats ∨ i = .ate) :
    Effect i s (advance { s with special := { s.special with atomic := b } })
  | environment (type : Word) (hi : isInt i = true) : Effect i s (callEnvironment type s)
  | byteStore (rs : Reg) (imm : Word) (base : Reg) (b : Byte) (hi : i = .mvbStore rs imm base) :
    Effect i s (advance (writeByte (effectiveAddress .second base imm s) b s))
  | wordStore (rs : Reg) (imm : Word) (base : Reg) (v : Word) (hi : i = .mvwStore rs imm base) :
    Effect i s (advance (writeWord (effectiveAddress .second base imm s) v s))

/-- A Set keeps or writes its destination (R130, log 5). -/
theorem setWhen_writesBack (i : Instr) (cond : Bool) (src : Operand) (rd : Reg) (s : State) (ha : isAlu i = false) :
    WritesBack i rd s (setWhen cond src rd s) := by
  cases cond with
  | false => exact .keep ha
  | true => exact .write _ ha

/-- An instruction with a destination completes, in one of the three ways. -/
theorem exec_of_destination (i : Instr) (rd : Reg) (s : State) (hd : destination i = some rd) :
    ∃ t, exec i s = .next t ∧ WritesBack i rd s t := by
  cases i with
  | movImm | movReg => cases hd; exact ⟨_, rfl, .write _ rfl⟩
  | mvbLoad => cases hd; exact ⟨_, execMvbLoad_eq _ _ _ _, .write _ rfl⟩
  | mvwLoad => cases hd; exact ⟨_, execMvwLoad_eq _ _ _ _, .write _ rfl⟩
  | seq | sne | sgt | sge | slt | sle | sov | scr => cases hd; exact ⟨_, rfl, setWhen_writesBack _ _ _ _ _ rfl⟩
  | add | sub | rsl | rsa | lsh | exb | and | orr | xor | cnt => cases hd; exact ⟨_, rfl, .alu _ _ _ rfl⟩
  | hlt | jeq | jne | jgt | jge | jlt | jle | jov | jmp | ats | ate | int | rft | tmr | mvbStore | mvwStore => cases hd

/-- A kernel-mode instruction completes only as itself (R83). -/
theorem whenKernel_next_iff (m : String) (s ok t : State) :
    whenKernel m s ok = .next t ↔ s.special.kernel = true ∧ t = ok := by
  cases h : s.special.kernel <;> simp [whenKernel, h, eq_comm]

/-- What `exec` answers is its family's effect. -/
theorem effect_of_exec (i : Instr) (s t : State) (h : exec i s = .next t) : Effect i s t := by
  cases hd : destination i with
  | some rd =>
    obtain ⟨u, hu, hw⟩ := exec_of_destination i rd s hd
    cases hu.symm.trans h
    exact .writeBack rd _ hd hw
  | none =>
    cases i with
    | hlt => cases h; exact .halt rfl
    | jeq | jne | jgt | jge | jlt | jle | jov | jmp => cases h; exact .jump _ _ (by simp)
    | ats =>
      obtain ⟨-, rfl⟩ := (whenKernel_next_iff _ _ _ _).mp h
      exact .atomicBit true (.inl rfl)
    | ate =>
      obtain ⟨-, rfl⟩ := (whenKernel_next_iff _ _ _ _).mp h
      exact .atomicBit false (.inr rfl)
    | int => cases h; exact .environment _ rfl
    | rft | tmr => cases h
    | mvbStore rs imm base =>
      cases (execMvbStore_eq rs imm base s).symm.trans h
      exact .byteStore rs imm base _ rfl
    | mvwStore rs imm base =>
      cases (execMvwStore_eq rs imm base s).symm.trans h
      exact .wordStore rs imm base _ rfl
    | movImm | movReg | mvbLoad | mvwLoad | seq | sne | sgt | sge | slt | sle | sov | scr => cases hd
    | add | sub | rsl | rsa | lsh | exb | and | orr | xor | cnt => cases hd

/-- Nothing writes instruction memory (R22; logs 2, 21). -/
theorem Effect.imem {i : Instr} {s t : State} (h : Effect i s t) : t.imem = s.imem := by
  cases h with
  | writeBack rd t hd ht => cases ht <;> simp
  | halt | atomicBit => rfl
  | jump | environment | byteStore | wordStore => simp

/-- Flags are written by the ALU instructions, by a write of r14, and during an INT (R15, R111). -/
theorem Effect.flags {i : Instr} {s t : State} (h : Effect i s t) (ha : isAlu i = false) (hn : isInt i = false)
    (h14 : destination i ≠ some .r14) : t.flags = s.flags := by
  cases h with
  | writeBack rd t hd ht =>
    cases ht with
    | keep => simp
    | write v => simp [writeReg_flags rd v s (by rintro rfl; exact h14 hd)]
    | alu r c o ha' => simp [ha] at ha'
  | environment type hi => simp [hn] at hi
  | halt | atomicBit => rfl
  | jump | byteStore | wordStore => simp

/-- Special bits are written by a write of r14 and during an INT, the Atomic bit by ATS and ATE besides (R16). -/
theorem Effect.special {i : Instr} {s t : State} (h : Effect i s t) (hn : isInt i = false)
    (h14 : destination i ≠ some .r14) :
    t.special.kernel = s.special.kernel ∧ (i ≠ .ats → i ≠ .ate → t.special.atomic = s.special.atomic) := by
  cases h with
  | writeBack rd t hd ht =>
    have hr : rd ≠ .r14 := by rintro rfl; exact h14 hd
    cases ht with
    | keep => simp
    | write v => simp [writeReg_special rd v s hr]
    | alu r c o => simp [aluWriteBack_special rd r c o s hr]
  | atomicBit b hi => exact ⟨rfl, fun h1 h2 => absurd hi (by simp [h1, h2])⟩
  | environment type hi => simp [hn] at hi
  | halt => exact ⟨rfl, fun _ _ => rfl⟩
  | jump | byteStore | wordStore => simp

/-- A register is written as a destination, or during an INT (R13, R20). -/
theorem Effect.regs_other {i : Instr} {s t : State} (h : Effect i s t) (hn : isInt i = false) (q : Reg)
    (hq : destination i ≠ some q) : t.regs.get q = s.regs.get q := by
  cases h with
  | writeBack rd t hd ht =>
    have hr : q ≠ rd := by rintro rfl; exact hq hd
    cases ht <;> simp [hr]
  | environment type hi => simp [hn] at hi
  | halt | atomicBit => rfl
  | jump | byteStore | wordStore => simp

/-- Data memory is written by the two stores and during an INT (R23). -/
theorem Effect.mem {i : Instr} {s t : State} (h : Effect i s t) (hn : isInt i = false)
    (hb : ∀ rs imm base, i ≠ .mvbStore rs imm base) (hw : ∀ rs imm base, i ≠ .mvwStore rs imm base) :
    t.mem = s.mem := by
  cases h with
  | writeBack rd t hd ht => cases ht <;> simp
  | environment type hi => simp [hn] at hi
  | byteStore rs imm base b hi => exact absurd hi (hb rs imm base)
  | wordStore rs imm base v hi => exact absurd hi (hw rs imm base)
  | halt | atomicBit => rfl
  | jump => simp

/-- A byte store writes the one byte at its effective address (R88). -/
theorem execMvbStore_sameBytesOutside (rs : Reg) (imm : Word) (base : Reg) (s t : State)
    (h : exec (.mvbStore rs imm base) s = .next t) : SameBytesOutside [effectiveAddress .second base imm s] s t := by
  cases (execMvbStore_eq rs imm base s).symm.trans h
  intro a ha
  exact readByte_writeByte_other _ _ _ _ (by simpa using ha)

/-- A word store writes the two bytes at its effective address (R90). -/
theorem execMvwStore_sameBytesOutside (rs : Reg) (imm : Word) (base : Reg) (s t : State)
    (h : exec (.mvwStore rs imm base) s = .next t) :
    SameBytesOutside (wordAddresses (effectiveAddress .second base imm s)) s t := by
  cases (execMvwStore_eq rs imm base s).symm.trans h
  intro a ha
  exact readByte_writeWordAs_other _ _ _ _ _ ha

/-! ### What a step can do -/

theorem destinationRegister_eq (i : Instr) : destinationRegister i = destination i := by cases i <;> rfl

theorem operandRegister_eq (b : Operand) : operandRegister b = registerOf b := by cases b <;> rfl

theorem sourceRegisters_eq (i : Instr) : sourceRegisters i = sources i := by
  cases i <;> simp [sourceRegisters, sources, operandRegister_eq]

/-- The step's refusal of an instruction's register operands is the one the statements write out (R19, R20). -/
theorem operandRefusal_eq (i : Instr) : operandRefusal i = refusedOperand i := by
  rw [operandRefusal, refusedOperand, sourceRegisters_eq, destinationRegister_eq]
  cases hd : destination i with
  | none => simp
  | some rd => cases rd <;> simp [destinationRefusal]

/-- No step that completes writes r14, unless the policy is to run such a write (R20). -/
theorem destination_ne_r14_of_allowed (policy : OperandPolicy) (i : Instr) (ha : operandRefusalAs policy i = none)
    (hp : policy = .refuse ∨ destination i ≠ some .r14) : destination i ≠ some .r14 := by
  rcases hp with rfl | h
  · intro hd
    have hn : refusedOperand i = none := (operandRefusal_eq i).symm.trans ha
    simp only [refusedOperand, hd] at hn
    split at hn <;> simp at hn
  · exact h

/-- A step runs the instruction the word at pc stands for: its operands are allowed, and the step's end follows. -/
theorem stepAs_next_of_runs (policy : OperandPolicy) (s t : State) (i : Instr) (hr : Runs s i)
    (h : stepAs policy s = .next t) :
    operandRefusalAs policy i = none ∧ ∃ u, exec i s = .next u ∧ t = tick (settleR15 u) := by
  obtain ⟨hh, w, hw, hi⟩ := hr
  rw [stepAs_of_decode policy s w i hh hw hi, whenOperandsAllowed_next_iff, endStep_next_iff] at h
  exact h

/-- Under the policy to run the register operands a step is the instruction's meaning and the end of the step (log 41). -/
theorem stepAs_run_of_runs (s : State) (i : Instr) (hr : Runs s i) : stepAs .run s = endStep (exec i s) := by
  obtain ⟨hh, w, hw, hi⟩ := hr
  rw [stepAs_of_decode _ s w i hh hw hi, whenOperandsAllowed_none _ _ _ rfl]

/-- The machine's step refuses an instruction for its register operands (R19, R20). -/
theorem step_refuses_of_runs (s : State) (i : Instr) (e : Refusal) (hr : Runs s i) (he : refusedOperand i = some e) :
    step s = .refused e := by
  obtain ⟨hh, w, hw, hi⟩ := hr
  rw [step, stepAs_of_decode _ s w i hh hw hi]
  exact whenOperandsAllowed_some _ _ _ e ((operandRefusal_eq i).trans he)

/-- The machine's step runs an instruction whose register operands are settled (R149). -/
theorem step_of_runs (s : State) (i : Instr) (hr : Runs s i) (hn : refusedOperand i = none) :
    step s = endStep (exec i s) := by
  obtain ⟨hh, w, hw, hi⟩ := hr
  rw [step, stepAs_of_decode _ s w i hh hw hi]
  exact whenOperandsAllowed_none _ _ _ ((operandRefusal_eq i).trans hn)

/-- With nothing in flight to r15 the end of a step counts the step and ticks the cycle counter (logs 16, 20). -/
theorem endStep_next_of_nothing_in_flight (t : State) (h : t.inFlight = []) :
    endStep (.next t) =
      .next { t with cycleCounter := Config.cycleTick t.draws t.cycleCounter, draws := t.draws + 1 } := by
  rw [endStep, settleR15_nil t h, tick]

/-! ### The load of a program -/

/-- The k-th slot counted from the second is the (k + 1)-th counted from the first (R18). -/
theorem slot_succ (base : Word) (k : Nat) :
    base + Config.pcStep + BitVec.ofNat 16 k * Config.pcStep = base + BitVec.ofNat 16 (k + 1) * Config.pcStep := by
  simp only [Config.pcStep, BitVec.ofNat_add]
  bv_omega

/-- With PC_STEP = 1 fewer than 65536 steps do not lead back (log 1). -/
theorem base_ne_later_slot (base : Word) (k : Nat) (hk : k + 1 < 65536) :
    base ≠ base + BitVec.ofNat 16 (k + 1) * Config.pcStep := by
  simp only [Config.pcStep]
  bv_omega

/-- A load leaves every slot alone that is none of the program's. -/
theorem get_placeWords_outside (base : Word) (ws : List InstrWord) (m : InstrMemory) (a : Word)
    (h : ∀ k < ws.length, a ≠ base + BitVec.ofNat 16 k * Config.pcStep) :
    Cells.get (placeWords base ws m) a.toNat = Cells.get m a.toNat := by
  induction ws generalizing base m with
  | nil => rfl
  | cons w ws ih =>
    have hrest : ∀ k < ws.length, a ≠ base + Config.pcStep + BitVec.ofNat 16 k * Config.pcStep := by
      intro k hk
      rw [slot_succ]
      exact h (k + 1) (by simpa using hk)
    have hfirst : a ≠ base := by simpa using h 0 (by simp)
    rw [placeWords, ih _ _ hrest, Cells.get_put_other _ _ _ _ (fun e => hfirst (BitVec.eq_of_toNat_eq e))]

/-- A load puts word k in the k-th slot from the base: no later word overwrites it (R45, log 30). -/
theorem get_placeWords_slot (base : Word) (ws : List InstrWord) (m : InstrMemory) (k : Nat) (w : InstrWord)
    (hlen : ws.length ≤ 65536) (hk : ws[k]? = some w) :
    Cells.get (placeWords base ws m) (base + BitVec.ofNat 16 k * Config.pcStep).toNat = some w := by
  induction ws generalizing base m k with
  | nil => simp at hk
  | cons v ws ih =>
    rw [List.length_cons] at hlen
    cases k with
    | zero =>
      have hv : v = w := by simpa using hk
      have hout : ∀ j < ws.length, base ≠ base + Config.pcStep + BitVec.ofNat 16 j * Config.pcStep := by
        intro j hj
        rw [slot_succ]
        exact base_ne_later_slot base j (by omega)
      have h0 : base + BitVec.ofNat 16 0 * Config.pcStep = base := by simp
      rw [h0, placeWords, get_placeWords_outside _ _ _ _ hout, Cells.get_put_same, hv]
    | succ k =>
      rw [← slot_succ]
      exact ih _ _ k (by omega) (by simpa using hk)

/-! ### Register reads and fetch -/

/-- Bits 3:0 of a read of r14 are the flag bits (R19). -/
theorem readReg_r14_low (k : ReadSlot) (s : State) (j : Nat) (hj : j < 4) :
    (readReg k .r14 s).getLsbD j = (flagBits s.flags).getLsbD j := by
  rw [readReg, readFlagsRegister, BitVec.getLsbD_append, if_pos hj]

/-- The flags in their places (R15). -/
theorem flagBits_getLsbD (f : Flags) :
    (flagBits f).getLsbD 0 = f.z ∧ (flagBits f).getLsbD 1 = f.n ∧ (flagBits f).getLsbD 2 = f.c ∧
      (flagBits f).getLsbD 3 = f.o := by
  have happend (j : Nat) : (flagBits f).getLsbD j = (BitVec.ofBool f.o ++ BitVec.ofBool f.c ++ BitVec.ofBool f.n ++
      BitVec.ofBool f.z : BitVec (1 + 1 + 1 + 1)).getLsbD j := rfl
  simp only [happend, BitVec.getLsbD_append]
  simp

/-- With PC_STEP = 4 the misaligned pcs are those that 4 does not divide (R18). -/
theorem pcMisaligned_four_iff (pc : Word) : pcMisaligned 4 pc = true ↔ pc.toNat % 4 ≠ 0 := by
  simp [pcMisaligned]

/-- With PC_STEP = 1 no pc is misaligned (R18). -/
theorem pcMisaligned_one (pc : Word) : pcMisaligned 1 pc = false := rfl

/-- A fetch at a misaligned pc reports that, whatever the slot holds (R149). -/
theorem fetchAs_of_misaligned (step : Word) (s : State) (h : pcMisaligned step s.pc = true) :
    fetchAs step s = .error (.fetchMisaligned s.pc) := by
  rw [fetchAs, if_pos h]

/-- A fetch at a pc that is an instruction address answers by its slot alone (R37). -/
theorem fetchAs_of_aligned (step : Word) (s : State) (h : pcMisaligned step s.pc = false) :
    (∀ w, Cells.get s.imem s.pc.toNat = some w → fetchAs step s = .ok w) ∧
      (Cells.get s.imem s.pc.toNat = none → fetchAs step s = .error (.fetchUnmapped s.pc)) := by
  constructor
  · intro w hw
    simp [fetchAs, h, hw]
  · intro hn
    simp [fetchAs, h, hn]

/-! ### The statements -/

/-- Settles O19, from the three things an instruction with a destination can do, a write of r0 being none. -/
theorem zeroRegisterDiscardsWrites : Obligations.ZeroRegisterDiscardsWrites := by
  unfold Obligations.ZeroRegisterDiscardsWrites
  intro i s hd
  obtain ⟨t, ht, hw⟩ := exec_of_destination i .r0 s hd
  refine ⟨t, ht, ?_⟩
  cases hw with
  | keep | write =>
    exact ⟨rfl, rfl, rfl, rfl, fun _ => rfl, rfl, ⟨rfl, rfl, rfl, rfl⟩, fun _ => rfl⟩
  | alu r c o ha =>
    rw [aluWriteBack_zero]
    exact ⟨rfl, rfl, rfl, rfl, fun _ => rfl, rfl, ⟨rfl, rfl, rfl, rfl⟩, fun hn => by simp [ha] at hn⟩

/-- Settles O56: no family writes instruction memory; the load by induction on the program. -/
theorem noStepChangesInstructionMemory : Obligations.NoStepChangesInstructionMemory := by
  unfold Obligations.NoStepChangesInstructionMemory
  refine ⟨fun policy s t h => ?_, fun base ws s hlen => ⟨fun k w hk => ?_, fun a ha => ?_, rfl, rfl⟩⟩
  · obtain ⟨-, w, i, u, -, -, -, hu, rfl⟩ := stepAs_next_cases policy s t h
    simpa using (effect_of_exec i s u hu).imem
  · exact get_placeWords_slot base ws s.imem k w hlen hk
  · exact get_placeWords_outside base ws s.imem a ha

/-- Settles O57, from the flags of each family; a refused write of r14 has no next state. -/
theorem flagsChangeOnlyByAluInstructions : Obligations.FlagsChangeOnlyByAluInstructions := by
  unfold Obligations.FlagsChangeOnlyByAluInstructions
  intro policy s t i hr h ha hn hp
  obtain ⟨hallowed, u, hu, rfl⟩ := stepAs_next_of_runs policy s t i hr h
  have h14 := destination_ne_r14_of_allowed policy i hallowed hp
  simpa using (effect_of_exec i s u hu).flags ha hn h14

/-- Settles O58, from the special bits of each family; a refused write of r14 has no next state. -/
theorem specialBitsChangeOnlyByTheirInstructions : Obligations.SpecialBitsChangeOnlyByTheirInstructions := by
  unfold Obligations.SpecialBitsChangeOnlyByTheirInstructions
  intro policy s t i hr h hn hp
  obtain ⟨hallowed, u, hu, rfl⟩ := stepAs_next_of_runs policy s t i hr h
  have h14 := destination_ne_r14_of_allowed policy i hallowed hp
  simpa using (effect_of_exec i s u hu).special hn h14

/-- Settles O59, from the two stores' own bytes and the data memory of every other family. -/
theorem memoryChangesOnlyByStores : Obligations.MemoryChangesOnlyByStores := by
  unfold Obligations.MemoryChangesOnlyByStores
  intro policy s t i hr h hn
  obtain ⟨-, u, hu, rfl⟩ := stepAs_next_of_runs policy s t i hr h
  refine ⟨?_, ?_, fun hb hw a => ?_⟩
  · rintro rs imm base rfl a ha
    rw [readByte_tick_settleR15]
    exact execMvbStore_sameBytesOutside rs imm base s u hu a ha
  · rintro rs imm base rfl a ha
    rw [readByte_tick_settleR15]
    exact execMvwStore_sameBytesOutside rs imm base s u hu a ha
  · rw [readByte_tick_settleR15]
    exact readByte_of_mem_eq ((effect_of_exec i s u hu).mem hn hb hw) a

/-- Settles O60, from the registers of each family. -/
theorem registersChangeOnlyAsDestinations : Obligations.RegistersChangeOnlyAsDestinations := by
  unfold Obligations.RegistersChangeOnlyAsDestinations
  intro policy s t i hr h hn q hq
  obtain ⟨-, u, hu, rfl⟩ := stepAs_next_of_runs policy s t i hr h
  simpa using (effect_of_exec i s u hu).regs_other hn q hq

/-- Settles O2, from the step of a decoded word and the end of a step with nothing in flight. -/
theorem stepRunsTheDecodedInstruction : Obligations.StepRunsTheDecodedInstruction := by
  unfold Obligations.StepRunsTheDecodedInstruction
  intro s i hr
  refine ⟨fun e he => step_refuses_of_runs s i e hr he, step_of_runs s i hr, stepAs_run_of_runs s i hr, ?_⟩
  intro t ht hnil
  have hend := endStep_next_of_nothing_in_flight t hnil
  rw [← ht] at hend
  exact ⟨(stepAs_run_of_runs s i hr).trans hend, fun hn => (step_of_runs s i hr hn).trans hend⟩

/-- Settles O4, from the pcs that are misaligned for each PC_STEP. -/
theorem misalignedFetchIsReportedFirst : Obligations.MisalignedFetchIsReportedFirst := by
  unfold Obligations.MisalignedFetchIsReportedFirst
  intro s
  have haligned (h : s.pc.toNat % 4 = 0) : pcMisaligned 4 s.pc = false :=
    Bool.eq_false_iff.mpr fun hm => (pcMisaligned_four_iff s.pc).mp hm h
  refine ⟨fun h => ?_, fun h => ?_, fun w h => ?_, ?_⟩
  · exact fetchAs_of_misaligned 4 s ((pcMisaligned_four_iff s.pc).mpr h)
  · exact (fetchAs_of_aligned 4 s (haligned h)).2
  · exact (fetchAs_of_aligned 4 s (haligned h)).1 w
  · exact (fetchAs_of_aligned 1 s (pcMisaligned_one s.pc)).1

/-- Settles O18, from the plain registers' read and the low bits of a read of r14. -/
theorem registersReadAsSourceOperands : Obligations.RegistersReadAsSourceOperands := by
  unfold Obligations.RegistersReadAsSourceOperands
  intro k s
  obtain ⟨hz, hn, hc, ho⟩ := flagBits_getLsbD s.flags
  have hlow := readReg_r14_low k s
  exact ⟨readReg_zero k s, fun r hr => readReg_stored k r s hr, (hlow 0 (by decide)).trans hz,
    (hlow 1 (by decide)).trans hn, (hlow 2 (by decide)).trans hc, (hlow 3 (by decide)).trans ho, rfl⟩

end Sys2Proof.Machine
end

section
/-! Proofs, family 20_memory: what a load and a store leave, the bytes of a word access, which accesses answer, and the
statements about data memory. -/

namespace Sys2Proof.Machine

open Sys2Proof.Claims

/-! ### Values and addresses -/

/-- Base plus immediate modulo 2^16, as a sum of numbers (R31). -/
theorem effectiveAddress_eq_ofNat (k : ReadSlot) (base : Reg) (imm : Word) (s : State) :
    effectiveAddress k base imm s = BitVec.ofNat 16 ((readReg k base s).toNat + imm.toNat) := by
  simp only [effectiveAddress, BitVec.ofNat_add, BitVec.ofNat_toNat, BitVec.setWidth_eq]

/-- A byte load extends with zeros (R36, log 4). -/
theorem extendByte_eq_ofNat (old : Word) (b : Byte) : extendByte old b = BitVec.ofNat 16 b.toNat :=
  (BitVec.ofNat_toNat 16 b).symm

/-- The number two bytes make, the upper one first. -/
theorem append_eq_ofNat (hi lo : Byte) : (hi ++ lo : Word) = BitVec.ofNat 16 (hi.toNat * 256 + lo.toNat) := by
  apply BitVec.eq_of_toNat_eq
  rw [BitVec.toNat_append, ← Nat.shiftLeft_add_eq_or_of_lt lo.isLt, Nat.shiftLeft_eq, BitVec.toNat_ofNat]
  omega

/-- A word read as the number its two bytes make in either byte order (R33). -/
theorem readWordAs_eq_ofNat (big : Bool) (s : State) (a : Word) :
    readWordAs big s a =
      BitVec.ofNat 16
        (if big then (readByte s a).toNat * 256 + (readByte s (a + 1)).toNat
         else (readByte s (a + 1)).toNat * 256 + (readByte s a).toNat) := by
  cases big <;> exact append_eq_ofNat _ _

/-- The lower half of a word as a number. -/
theorem toNat_lower_half (v : Word) : (v.extractLsb' 0 8).toNat = v.toNat % 256 := by
  rw [BitVec.extractLsb'_toNat, Nat.shiftRight_zero]

/-- The upper half of a word as a number. -/
theorem toNat_upper_half (v : Word) : (v.extractLsb' 8 8).toNat = v.toNat / 256 := by
  rw [BitVec.extractLsb'_toNat, Nat.shiftRight_eq_div_pow]
  omega

/-- The first byte of a word access as a number (R33). -/
theorem toNat_byteAtFirst (big : Bool) (v : Word) :
    (byteAtFirst big v).toNat = if big then v.toNat / 256 else v.toNat % 256 := by
  cases big with
  | false => exact toNat_lower_half v
  | true => exact toNat_upper_half v

/-- The second byte of a word access as a number (R33). -/
theorem toNat_byteAtSecond (big : Bool) (v : Word) :
    (byteAtSecond big v).toNat = if big then v.toNat % 256 else v.toNat / 256 := by
  cases big with
  | false => exact toNat_upper_half v
  | true => exact toNat_lower_half v

/-! ### What a load and a store leave -/

/-- Writing a destination register and going on writes that register and nothing else (R20). -/
theorem moveDone_advance_writeReg (rd : Reg) (v : Word) (s : State) : MoveDone rd v s (advance (writeReg rd v s)) := by
  have hwrote : Wrote rd v s (advance (writeReg rd v s)) :=
    ⟨fun h => writeReg_regs_same rd v s h, fun q h => writeReg_regs_other rd q v s h,
      fun h => writeReg_cycleCounter rd v s h, fun h => writeReg_special rd v s h, writeReg_inFlight rd v s⟩
  refine ⟨hwrote, fun h => writeReg_flags rd v s h, by simp, fun a => ?_, by simp [SameRest]⟩
  exact readByte_of_mem_eq (by simp) a

/-- Storing a word and going on changes its two bytes and nothing else (R33, R90). -/
theorem storeDone_advance_writeWord (a v : Word) (s : State) :
    StoreDone (wordAddresses a) s (advance (writeWord a v s)) :=
  ⟨rfl, rfl, rfl, rfl, rfl, rfl, fun _ h => readByte_writeWordAs_other _ a v _ s h, rfl, rfl, rfl, rfl⟩

/-- r0 and the plain registers read alike in both read slots of any two states with one register file (R11, R19). -/
theorem readReg_congr {r : Reg} (h : Stored r ∨ r = .r0) (k j : ReadSlot) {s t : State} (hregs : t.regs = s.regs) :
    readReg k r t = readReg j r s := by
  rcases h with h | rfl
  · rw [readReg_stored k r t h, readReg_stored j r s h, hregs]
  · rfl

/-- Such a base gives both instructions of a store and a load the same address (R31). -/
theorem effectiveAddress_congr {base : Reg} (h : Stored base ∨ base = .r0) (k j : ReadSlot) (imm : Word) {s t : State}
    (hregs : t.regs = s.regs) : effectiveAddress k base imm t = effectiveAddress j base imm s := by
  rw [effectiveAddress, effectiveAddress, readReg_congr h k j hregs]

/-- A word read from where it was stored is that word, in the open byte order (R33, log 10). -/
theorem readWord_advance_writeWord (a v : Word) (s : State) : readWord (advance (writeWord a v s)) a = v :=
  readWordAs_writeWordAs Config.dataBigEndian a v s

/-! ### Which accesses answer -/

/-- An access to no byte answers. -/
@[simp] theorem whenMapped_nil (mapped : Word → Bool) (ok : State) : whenMapped mapped [] ok = .next ok := rfl

/-- A byte that has memory leaves the outcome to the others (R32). -/
theorem whenMapped_cons_of_mapped (mapped : Word → Bool) (a : Word) (addrs : List Word) (ok : State)
    (h : mapped a = true) : whenMapped mapped (a :: addrs) ok = whenMapped mapped addrs ok := by
  rw [whenMapped, List.find?_cons_of_neg (by simp [h]), whenMapped]

/-- The first byte that has no memory is the one Unmapped names (R32, log 38). -/
theorem whenMapped_cons_of_unmapped (mapped : Word → Bool) (a : Word) (addrs : List Word) (ok : State)
    (h : mapped a = false) : whenMapped mapped (a :: addrs) ok = .fault (.unmapped a) := by
  rw [whenMapped, List.find?_cons_of_pos (by simp [h])]

/-- A byte is code when it is one of the four bytes from a loaded instruction's address on (R43, log 2). -/
theorem overlapsCode_iff (code : InstrMemory) (a : Word) :
    overlapsCode code a = true ↔ ∃ k < 4, ∃ w, Cells.get code (a - BitVec.ofNat 16 k).toNat = some w := by
  have hrange : overlapsCode code a =
      (List.range 4).any fun k => (Cells.get code (a - BitVec.ofNat 16 k).toNat).isSome := rfl
  simp only [hrange, List.any_eq_true, List.mem_range, Option.isSome_iff_exists]

/-- With one memory a store to a byte of code is refused, whatever is mapped (R43, R149). -/
theorem storeAs_unified_of_overlap (mapped : Word → Bool) (code : InstrMemory) (addrs : List Word) (ok : State)
    (h : ∃ a ∈ addrs, overlapsCode code a = true) : storeAs true mapped code addrs ok = .refused .storeToCode := by
  rw [storeAs, Bool.true_and, if_pos (List.any_eq_true.mpr h)]

/-- With one memory a store to no byte of code goes by MEM_MAPPED (R32, R43). -/
theorem storeAs_unified_of_no_overlap (mapped : Word → Bool) (code : InstrMemory) (addrs : List Word) (ok : State)
    (h : ∀ a ∈ addrs, ¬ overlapsCode code a = true) :
    storeAs true mapped code addrs ok = whenMapped mapped addrs ok := by
  have hnone : ¬ addrs.any (overlapsCode code) = true := by
    rw [List.any_eq_true]
    rintro ⟨a, ha, hc⟩
    exact h a ha hc
  rw [storeAs, Bool.true_and, if_neg hnone]

/-! ### The statements -/

/-- Settles O28: the load completes with one register written; the address and the extension as numbers. -/
theorem byteLoadReadsTheByteAtTheAddress : Obligations.ByteLoadReadsTheByteAtTheAddress := by
  unfold Obligations.ByteLoadReadsTheByteAtTheAddress
  intro s base rd imm
  refine ⟨_, execMvbLoad_eq base imm rd s, ?_⟩
  rw [extendByte_eq_ofNat, effectiveAddress_eq_ofNat]
  exact moveDone_advance_writeReg rd _ s

/-- Settles O30: the load completes with one register written; the word as the number its bytes make. -/
theorem wordLoadReadsTwoBytes : Obligations.WordLoadReadsTwoBytes := by
  unfold Obligations.WordLoadReadsTwoBytes
  intro s base rd imm ea
  refine ⟨_, execMvwLoad_eq base imm rd s, ?_⟩
  rw [readWord, readWordAs_eq_ofNat]
  exact moveDone_advance_writeReg rd _ s

/-- Settles O31: the store completes with two bytes written; each byte as a number. -/
theorem wordStoreWritesTwoBytes : Obligations.WordStoreWritesTwoBytes := by
  unfold Obligations.WordStoreWritesTwoBytes
  intro s rs base imm ea v
  refine ⟨_, execMvwStore_eq rs imm base s, storeDone_advance_writeWord _ _ s, ?_, ?_⟩
  · exact (congrArg BitVec.toNat (readByte_writeWordAs_first _ ea _ s)).trans (toNat_byteAtFirst _ _)
  · exact (congrArg BitVec.toNat (readByte_writeWordAs_second _ ea _ s)).trans (toNat_byteAtSecond _ _)

/-- Settles O33: the store leaves the base register's value, so the load reads where the word was stored. -/
theorem storeThenLoadReturnsTheWord : Obligations.StoreThenLoadReturnsTheWord := by
  unfold Obligations.StoreThenLoadReturnsTheWord
  intro s rs base rd imm hbase
  refine ⟨_, _, execMvwStore_eq rs imm base s, execMvwLoad_eq base imm rd _, ?_⟩
  rw [effectiveAddress_congr hbase .first .second imm (s := s) (t := advance (writeWord _ _ s)) rfl,
    readWord_advance_writeWord]
  exact moveDone_advance_writeReg rd _ _

/-- Settles O32, from the two bytes of a word store and the read back. -/
theorem wordReadsBackInEitherByteOrder : Obligations.WordReadsBackInEitherByteOrder := by
  unfold Obligations.WordReadsBackInEitherByteOrder
  intro big mapped s ok a v
  refine ⟨rfl, readByte_writeWordAs_first big a v s, readByte_writeWordAs_second big a v s,
    fun c h => readByte_writeWordAs_other big a v c s h, readWordAs_writeWordAs big a v s, ?_⟩
  simp [whenMapped_next_iff, wordAddresses]

/-- Settles O34, from a byte's read after a write and the outcome of an access byte by byte. -/
theorem accessToAnUnmappedByteFaults : Obligations.AccessToAnUnmappedByteFaults := by
  unfold Obligations.AccessToAnUnmappedByteFaults
  refine ⟨fun s a b h => by rw [readByte, h, Option.getD_some], fun s a b => ⟨readByte_writeByte_same a b s, ?_⟩,
    fun mapped a ok => ⟨fun h => ?_, fun h => ?_, fun h0 h1 => ?_, fun h => ?_, fun h0 h1 => ?_⟩⟩
  · exact fun c hc => readByte_writeByte_other a c b s (List.mem_singleton.not.mp hc)
  · exact whenMapped_cons_of_mapped mapped a [] ok h
  · exact whenMapped_cons_of_unmapped mapped a [] ok h
  · exact (whenMapped_cons_of_mapped mapped a _ ok h0).trans (whenMapped_cons_of_mapped mapped (a + 1) [] ok h1)
  · exact whenMapped_cons_of_unmapped mapped a _ ok h
  · exact (whenMapped_cons_of_mapped mapped a _ ok h0).trans (whenMapped_cons_of_unmapped mapped (a + 1) [] ok h1)

/-- Settles O35, from the bytes that are code. -/
theorem storeToCodeIsRefusedWhenUnified : Obligations.StoreToCodeIsRefusedWhenUnified := by
  unfold Obligations.StoreToCodeIsRefusedWhenUnified
  intro mapped code addrs ok
  refine ⟨fun h => ?_, fun h => ?_, rfl⟩
  · obtain ⟨a, ha, hcode⟩ := h
    exact storeAs_unified_of_overlap mapped code addrs ok ⟨a, ha, (overlapsCode_iff code a).mpr hcode⟩
  · refine storeAs_unified_of_no_overlap mapped code addrs ok fun a ha hover => ?_
    obtain ⟨k, hk, w, hw⟩ := (overlapsCode_iff code a).mp hover
    cases (h a ha k hk).symm.trans hw

end Sys2Proof.Machine
end

section
/-! Proofs, family 30_encoding: the fields of a word against the masks of R57 and the type codes of R58, how each group's
decoder answers, and the statements about the words that are no instruction. -/

namespace Sys2Proof.Machine

open Sys2Proof.Claims

/-! ### A word's fields and its bits -/

/-- W[31:28] is the field `op` (R51). -/
theorem opcodeOf_toWord (f : Fields) : opcodeOf f.toWord = f.op.toNat := by
  have := f.ty.isLt
  have := f.ir.isLt
  have := f.ra.isLt
  have := f.imm.isLt
  have := f.rd.isLt
  rw [opcodeOf, f.toWord_toNat]
  omega

/-- W[27:25] is the field `ty` (R51). -/
theorem typeOf_toWord (f : Fields) : typeOf f.toWord = f.ty.toNat := by
  have := f.ty.isLt
  have := f.ir.isLt
  have := f.ra.isLt
  have := f.imm.isLt
  have := f.rd.isLt
  rw [typeOf, f.toWord_toNat]
  omega

/-- W[24] is the bit `ir` (R51). -/
theorem getElem_toWord_ir (f : Fields) : f.toWord[24] = (f.ir == 1#1) := by
  have hbit : ∀ b : BitVec 1, b[0] = (b == 1#1) := by decide
  have hir : f.toWord.extractLsb' 24 1 = f.ir := congrArg Fields.ir f.ofWord_toWord
  rw [← hbit f.ir, ← hir, BitVec.getElem_extractLsb', BitVec.getLsbD_eq_getElem]

/-- A word is zero when its six fields are. -/
theorem eq_zero_iff_fields (w : InstrWord) : w = 0#32 ↔ Fields.ofWord w = ⟨0#4, 0#3, 0#1, 0#4, 0#16, 0#4⟩ :=
  ⟨fun h => by rw [h]; decide, fun h => by rw [← Fields.toWord_ofWord w, h]; decide⟩

/-- A word has no 1 under a mask when none of its fields has one under the mask's part there. -/
theorem toWord_and_eq_zero_iff (f : Fields) (m : InstrWord) :
    f.toWord &&& m = 0#32 ↔
      f.op &&& m.extractLsb' 28 4 = 0#4 ∧ f.ty &&& m.extractLsb' 25 3 = 0#3 ∧ f.ir &&& m.extractLsb' 24 1 = 0#1 ∧
        f.ra &&& m.extractLsb' 20 4 = 0#4 ∧ f.imm &&& m.extractLsb' 4 16 = 0#16 ∧ f.rd &&& m.extractLsb' 0 4 = 0#4 := by
  have hand : Fields.ofWord (f.toWord &&& m) =
      ⟨f.op &&& m.extractLsb' 28 4, f.ty &&& m.extractLsb' 25 3, f.ir &&& m.extractLsb' 24 1,
        f.ra &&& m.extractLsb' 20 4, f.imm &&& m.extractLsb' 4 16, f.rd &&& m.extractLsb' 0 4⟩ := by
    conv_rhs => rw [← f.ofWord_toWord]
    simp only [Fields.ofWord, BitVec.extractLsb'_and]
  rw [eq_zero_iff_fields, hand, Fields.mk.injEq]

/-! ### A field under the whole of its mask -/

@[simp] theorem and_ones_one (b : BitVec 1) : b &&& 1#1 = b := BitVec.and_allOnes
@[simp] theorem and_ones_three (b : BitVec 3) : b &&& 7#3 = b := BitVec.and_allOnes
@[simp] theorem and_ones_four (b : BitVec 4) : b &&& 15#4 = b := BitVec.and_allOnes
@[simp] theorem and_ones_sixteen (b : BitVec 16) : b &&& 65535#16 = b := BitVec.and_allOnes

/-- The mask of the immediate field below Reg B leaves the twelve zeros (R51, R57). -/
theorem imm_and_low_eq_zero_iff (f : Fields) : f.imm &&& 4095#16 = 0#16 ↔ f.z12 = 0#12 := by
  have himm : f.imm = f.rb ++ f.z12 := (BitVec.extractLsb'_append_extractLsb' (w := 4) (len := 12)).symm
  have hmask : 4095#16 = 0#4 ++ BitVec.allOnes 12 := by decide
  have hzero : 0#16 = 0#4 ++ 0#12 := by decide
  rw [himm, hmask, hzero, BitVec.and_append, BitVec.and_zero, BitVec.and_allOnes, BitVec.append_right_inj]

/-- The upper two bits of the type code are zero in the codes 000 and 001 (R53). -/
theorem ty_and_upper_eq_zero_iff (b : BitVec 3) : b &&& 6#3 = 0#3 ↔ b.toNat < 2 := by
  revert b
  decide

/-! ### Each group's check against its row of R57 -/

/-- No field of the word has a 1 where the table of R57 has one. -/
def UnusedBitsZero (f : Fields) : Prop := f.toWord &&& unusedBits f.toWord = 0#32

/-- Groups whose word is all zeros after the opcode. -/
theorem unusedBitsZero_halt_rft_iff (f : Fields) (hop : f.op.toNat = 0 ∨ f.op.toNat = 4) (hty : f.ty = 0#3) :
    UnusedBitsZero f ↔ (f.ir == 0 && f.ra == 0 && f.imm == 0 && f.rd == 0) = true := by
  have hmask : unusedBits f.toWord = 0x0FFFFFFF#32 := by
    rcases hop with hop | hop <;> simp [unusedBits, opcodeOf_toWord, hop]
  simp [UnusedBitsZero, hmask, toWord_and_eq_zero_iff, hty, and_assoc]

/-- Format A: the bit s/e is used. -/
theorem unusedBitsZero_atomic_iff (f : Fields) (hop : f.op.toNat = 2) (hty : f.ty.toNat < 2) :
    UnusedBitsZero f ↔ (f.ir == 0 && f.ra == 0 && f.imm == 0 && f.rd == 0) = true := by
  have hmask : unusedBits f.toWord = 0x0DFFFFFF#32 := by simp [unusedBits, opcodeOf_toWord, hop]
  simp [UnusedBitsZero, hmask, toWord_and_eq_zero_iff, ty_and_upper_eq_zero_iff, hty, and_assoc]

/-- Format J, by the form. -/
theorem unusedBitsZero_jump_iff (f : Fields) (hop : f.op.toNat = 1) :
    UnusedBitsZero f ↔ f.operandACanonical = true := by
  have hmask : unusedBits f.toWord = if f.ir == 1#1 then 0x000FFFFF#32 else 0x00F0000F#32 := by
    simp [unusedBits, opcodeOf_toWord, hop, getElem_toWord_ir]
  rcases BitVec.eq_zero_or_eq_one f.ir with hir | hir <;>
    simp [UnusedBitsZero, hmask, hir, toWord_and_eq_zero_iff, Fields.operandACanonical, and_comm]

/-- Format I, by the form. -/
theorem unusedBitsZero_int_iff (f : Fields) (hop : f.op.toNat = 3) (hty : f.ty = 0#3) :
    UnusedBitsZero f ↔ f.operandACanonical = true := by
  have hmask : unusedBits f.toWord = if f.ir == 1#1 then 0x0E0FFFFF#32 else 0x0EF0000F#32 := by
    simp [unusedBits, opcodeOf_toWord, hop, getElem_toWord_ir]
  rcases BitVec.eq_zero_or_eq_one f.ir with hir | hir <;>
    simp [UnusedBitsZero, hmask, hir, hty, toWord_and_eq_zero_iff, Fields.operandACanonical, and_comm]

/-- Format T. -/
theorem unusedBitsZero_tmr_iff (f : Fields) (hop : f.op.toNat = 5) : UnusedBitsZero f ↔ (f.rd == 0) = true := by
  have hmask : unusedBits f.toWord = 0x0000000F#32 := by simp [unusedBits, opcodeOf_toWord, hop]
  simp [UnusedBitsZero, hmask, toWord_and_eq_zero_iff]

/-- Format M, by the type code. -/
theorem unusedBitsZero_move_iff (f : Fields) (hop : f.op.toNat = 6) :
    (f.ty.toNat = 0 → (UnusedBitsZero f ↔ (f.ir == 0 && f.ra == 0) = true)) ∧
      (f.ty.toNat = 1 → (UnusedBitsZero f ↔ (f.ir == 0 && f.imm == 0) = true)) ∧
      (2 ≤ f.ty.toNat → (UnusedBitsZero f ↔ (f.ir == 0) = true)) := by
  refine ⟨fun hty => ?_, fun hty => ?_, fun hty => ?_⟩
  · have hmask : unusedBits f.toWord = 0x01F00000#32 := by simp [unusedBits, opcodeOf_toWord, typeOf_toWord, hop, hty]
    simp [UnusedBitsZero, hmask, toWord_and_eq_zero_iff]
  · have hmask : unusedBits f.toWord = 0x010FFFF0#32 := by simp [unusedBits, opcodeOf_toWord, typeOf_toWord, hop, hty]
    simp [UnusedBitsZero, hmask, toWord_and_eq_zero_iff]
  · have hmask : unusedBits f.toWord = 0x01000000#32 := by
      simp only [unusedBits, opcodeOf_toWord, typeOf_toWord, hop]
      split
      · omega
      · omega
      · rfl
    simp [UnusedBitsZero, hmask, toWord_and_eq_zero_iff]

/-- Format S, by the form. -/
theorem unusedBitsZero_set_iff (f : Fields) (hop : f.op.toNat = 7) :
    UnusedBitsZero f ↔ (f.ra == 0 && f.operandBCanonical) = true := by
  have hmask : unusedBits f.toWord = if f.ir == 1#1 then 0x00F0FFF0#32 else 0x00F00000#32 := by
    simp [unusedBits, opcodeOf_toWord, hop, getElem_toWord_ir]
  rcases BitVec.eq_zero_or_eq_one f.ir with hir | hir
  · simp [UnusedBitsZero, hmask, hir, toWord_and_eq_zero_iff, Fields.operandBCanonical]
  · simp [UnusedBitsZero, hmask, hir, toWord_and_eq_zero_iff, Fields.operandBCanonical, imm_and_low_eq_zero_iff]

/-- Format L, by the form. -/
theorem unusedBitsZero_alu_iff (f : Fields) (hop : 8 ≤ f.op.toNat) :
    UnusedBitsZero f ↔ f.operandBCanonical = true := by
  have hmask : unusedBits f.toWord = if f.ir == 1#1 then 0x0000FFF0#32 else 0#32 := by
    simp only [unusedBits, opcodeOf_toWord, BitVec.getLsbD_eq_getElem (show 24 < 32 by decide), getElem_toWord_ir]
    split
    case h_9 => rfl
    all_goals omega
  rcases BitVec.eq_zero_or_eq_one f.ir with hir | hir
  · simp [UnusedBitsZero, hmask, hir, Fields.operandBCanonical]
  · simp [UnusedBitsZero, hmask, hir, toWord_and_eq_zero_iff, Fields.operandBCanonical, imm_and_low_eq_zero_iff]

/-! ### How each group's decoder answers -/

/-- The decoder answers as the tables of R57 and R58 say: reserved when the type code is unlisted, and otherwise by the
check that the unused bits are zero. -/
def AnswersByTheTables (f : Fields) : Prop :=
  (Unlisted f.toWord → decodeFields f = .error .reservedEncoding) ∧
    (¬ Unlisted f.toWord → ∃ ok i, decodeFields f = whenCanonical ok i ∧ (UnusedBitsZero f ↔ ok = true))

theorem answersByTheTables_of_unlisted (f : Fields) (hu : Unlisted f.toWord)
    (hd : decodeFields f = .error .reservedEncoding) : AnswersByTheTables f :=
  ⟨fun _ => hd, fun hl => absurd hu hl⟩

theorem answersByTheTables_of_listed (f : Fields) (ok : Bool) (i : Instr) (hl : ¬ Unlisted f.toWord)
    (hd : decodeFields f = whenCanonical ok i) (hc : UnusedBitsZero f ↔ ok = true) : AnswersByTheTables f :=
  ⟨fun hu => absurd hu hl, fun _ => ⟨ok, i, hd, hc⟩⟩

/-- The unlisted type codes of R58 in the word's fields. -/
theorem unlisted_toWord_iff (f : Fields) :
    Unlisted f.toWord ↔
      (f.op.toNat ∈ [0, 3, 4, 10, 11, 12, 13, 14, 15] ∧ f.ty.toNat ≠ 0) ∨
        (f.op.toNat ∈ [2, 8, 9] ∧ 2 ≤ f.ty.toNat) ∨ (f.op.toNat = 6 ∧ 6 ≤ f.ty.toNat) := by
  rw [Unlisted, opcodeOf_toWord, typeOf_toWord]

/-- A group with the one type code 000 answers by the tables when its check is the one of R57. -/
theorem answersByTheTables_of_one_type (f : Fields) (ok : Bool) (i : Instr)
    (hop : f.op.toNat ∈ [0, 3, 4, 10, 11, 12, 13, 14, 15])
    (hd : decodeFields f = if f.ty = 0 then whenCanonical ok i else .error .reservedEncoding)
    (hc : f.ty = 0#3 → (UnusedBitsZero f ↔ ok = true)) : AnswersByTheTables f := by
  have hzero : f.ty = 0 ↔ f.ty.toNat = 0 := BitVec.toNat_inj.symm
  have hu : Unlisted f.toWord ↔ f.ty ≠ 0 := by
    rw [ne_eq, hzero, unlisted_toWord_iff]
    simp only [List.mem_cons, List.not_mem_nil, or_false] at hop ⊢
    omega
  by_cases hty : f.ty = 0
  · exact answersByTheTables_of_listed f ok i (fun h => hu.mp h hty) (hd.trans (if_pos hty)) (hc hty)
  · exact answersByTheTables_of_unlisted f (hu.mpr hty) (hd.trans (if_neg hty))

/-- A group with the two type codes 000 and 001 answers by the tables when its check is the one of R57. -/
theorem answersByTheTables_of_two_types (f : Fields) (ok : Bool) (i j : Instr) (hop : f.op.toNat ∈ [2, 8, 9])
    (hd : decodeFields f = match f.ty.toNat with
      | 0 => whenCanonical ok i
      | 1 => whenCanonical ok j
      | _ => .error .reservedEncoding)
    (hc : f.ty.toNat < 2 → (UnusedBitsZero f ↔ ok = true)) : AnswersByTheTables f := by
  have hu : Unlisted f.toWord ↔ 2 ≤ f.ty.toNat := by
    rw [unlisted_toWord_iff]
    simp only [List.mem_cons, List.not_mem_nil, or_false] at hop ⊢
    omega
  split at hd
  case h_1 hty => exact answersByTheTables_of_listed f ok i (mt hu.mp (by omega)) hd (hc (by omega))
  case h_2 hty => exact answersByTheTables_of_listed f ok j (mt hu.mp (by omega)) hd (hc (by omega))
  case h_3 h0 h1 => exact answersByTheTables_of_unlisted f (hu.mpr ((Nat.two_le_iff _).mpr ⟨h0, h1⟩)) hd

theorem halt_answersByTheTables (f : Fields) (hop : f.op.toNat = 0) : AnswersByTheTables f := by
  have hd : decodeFields f = decodeHalt f := by simp only [decodeFields, hop]
  exact answersByTheTables_of_one_type f _ _ (by simp [hop]) hd (unusedBitsZero_halt_rft_iff f (.inl hop))

theorem jump_answersByTheTables (f : Fields) (hop : f.op.toNat = 1) : AnswersByTheTables f := by
  have hd : decodeFields f = decodeJump f := by simp only [decodeFields, hop]
  exact answersByTheTables_of_listed f _ _ (by simp [unlisted_toWord_iff, hop]) hd (unusedBitsZero_jump_iff f hop)

theorem atomic_answersByTheTables (f : Fields) (hop : f.op.toNat = 2) : AnswersByTheTables f := by
  have hd : decodeFields f = decodeAtomic f := by simp only [decodeFields, hop]
  exact answersByTheTables_of_two_types f _ _ _ (by simp [hop]) hd (unusedBitsZero_atomic_iff f hop)

theorem int_answersByTheTables (f : Fields) (hop : f.op.toNat = 3) : AnswersByTheTables f := by
  have hd : decodeFields f = decodeInt f := by simp only [decodeFields, hop]
  exact answersByTheTables_of_one_type f _ _ (by simp [hop]) hd (unusedBitsZero_int_iff f hop)

/-- Opcode 0100, by the spec's suggestion (log 23). -/
theorem rft_answersByTheTables (f : Fields) (hop : f.op.toNat = 4) : AnswersByTheTables f := by
  have hopc : f.op = Config.opcRft := BitVec.eq_of_toNat_eq hop
  have hd : decodeFields f = decodeRft f := by simp only [decodeFields, hop, decodeUnstated, if_pos hopc]
  exact answersByTheTables_of_one_type f _ _ (by simp [hop]) hd (unusedBitsZero_halt_rft_iff f (.inr hop))

/-- Opcode 0101, by the spec's suggestion (log 23). -/
theorem tmr_answersByTheTables (f : Fields) (hop : f.op.toNat = 5) : AnswersByTheTables f := by
  have hopc : f.op ≠ Config.opcRft := fun h => by simp [h, Config.opcRft] at hop
  have hd : decodeFields f = decodeTmr f := by simp only [decodeFields, hop, decodeUnstated, if_neg hopc]
  exact answersByTheTables_of_listed f _ _ (by simp [unlisted_toWord_iff, hop]) hd (unusedBitsZero_tmr_iff f hop)

theorem move_answersByTheTables (f : Fields) (hop : f.op.toNat = 6) : AnswersByTheTables f := by
  obtain ⟨himm, hreg, hmem⟩ := unusedBitsZero_move_iff f hop
  have hu : Unlisted f.toWord ↔ 6 ≤ f.ty.toNat := by simp [unlisted_toWord_iff, hop]
  have hd : decodeFields f = decodeMove f := by simp only [decodeFields, hop]
  unfold decodeMove at hd
  split at hd
  case h_7 =>
    simp only [imp_false] at * -- the codes 000 to 101 ruled out, as `≠`, which `omega` reads
    exact answersByTheTables_of_unlisted f (hu.mpr (by omega)) hd
  case h_1 hty => exact answersByTheTables_of_listed f _ _ (mt hu.mp (by omega)) hd (himm hty)
  case h_2 hty => exact answersByTheTables_of_listed f _ _ (mt hu.mp (by omega)) hd (hreg hty)
  all_goals exact answersByTheTables_of_listed f _ _ (mt hu.mp (by omega)) hd (hmem (by omega))

theorem set_answersByTheTables (f : Fields) (hop : f.op.toNat = 7) : AnswersByTheTables f := by
  have hd : decodeFields f = decodeSet f := by simp only [decodeFields, hop]
  exact answersByTheTables_of_listed f _ _ (by simp [unlisted_toWord_iff, hop]) hd (unusedBitsZero_set_iff f hop)

theorem alu2_answersByTheTables (f : Fields) (mk0 mk1 : Reg → Operand → Reg → Instr) (hop : f.op.toNat ∈ [8, 9])
    (hd : decodeFields f = decodeAlu2 mk0 mk1 f) : AnswersByTheTables f := by
  simp only [List.mem_cons, List.not_mem_nil, or_false] at hop
  exact answersByTheTables_of_two_types f _ _ _ (by simp; omega) hd fun _ => unusedBitsZero_alu_iff f (by omega)

theorem alu1_answersByTheTables (f : Fields) (mk : Reg → Operand → Reg → Instr) (hop : 10 ≤ f.op.toNat)
    (hd : decodeFields f = decodeAlu1 mk f) : AnswersByTheTables f := by
  have := f.op.isLt
  exact answersByTheTables_of_one_type f _ _ (by simp; omega) hd fun _ => unusedBitsZero_alu_iff f (by omega)

/-- Every group's decoder answers by the tables of R57 and R58, by the opcode map (R52). -/
theorem decodeFields_answersByTheTables (f : Fields) : AnswersByTheTables f := by
  have hd := decodeFields.eq_def f
  split at hd
  case h_1 hop => exact halt_answersByTheTables f hop
  case h_2 hop => exact jump_answersByTheTables f hop
  case h_3 hop => exact atomic_answersByTheTables f hop
  case h_4 hop => exact int_answersByTheTables f hop
  case h_5 hop => exact rft_answersByTheTables f hop
  case h_6 hop => exact tmr_answersByTheTables f hop
  case h_7 hop => exact move_answersByTheTables f hop
  case h_8 hop => exact set_answersByTheTables f hop
  case h_9 hop => exact alu2_answersByTheTables f _ _ (by simp [hop]) hd
  case h_10 hop => exact alu2_answersByTheTables f _ _ (by simp [hop]) hd
  case h_16 =>
    simp only [imp_false] at * -- the opcodes 0000 to 1110 ruled out
    exact alu1_answersByTheTables f _ (by omega) hd
  all_goals exact alu1_answersByTheTables f _ (by omega) hd

/-- An unlisted type code is refused as reserved (R58). -/
theorem decode_of_unlisted (w : InstrWord) (h : Unlisted w) : decode w = .error .reservedEncoding := by
  have hu := (decodeFields_answersByTheTables (Fields.ofWord w)).1
  rw [Fields.toWord_ofWord] at hu
  exact hu h

/-- A listed type code is answered by the check that the unused bits are zero (R57). -/
theorem decode_of_listed (w : InstrWord) (h : ¬ Unlisted w) :
    ∃ ok i, decode w = whenCanonical ok i ∧ (w &&& unusedBits w = 0 ↔ ok = true) := by
  have hl := (decodeFields_answersByTheTables (Fields.ofWord w)).2
  rw [UnusedBitsZero, Fields.toWord_ofWord] at hl
  exact hl h

/-- The check for the unused bits never answers that a word is reserved. -/
theorem whenCanonical_ne_reserved (ok : Bool) (i : Instr) : whenCanonical ok i ≠ .error .reservedEncoding := by
  cases ok <;> simp [whenCanonical]

/-! ### The step of a word that is no instruction -/

/-- A step at a word that is no instruction is the refusal of that name (R37, with the spec's default PC_STEP). -/
theorem step_of_decode_error (s : State) (w : InstrWord) (e : DecodeError) (hh : s.halted = false)
    (hw : Cells.get s.imem s.pc.toNat = some w) (he : decode w = .error e) : step s = .refused (refusalOf e) := by
  have hf : fetch s = .ok w := (fetchAs_of_aligned Config.pcStep s (pcMisaligned_one s.pc)).1 w hw
  simp [step, stepAs, hh, hf, he]

/-! ### The statements -/

/-- Settles O7, from the step of a word that is no instruction. -/
theorem stepRefusesWordsThatAreNoInstruction : Obligations.StepRefusesWordsThatAreNoInstruction := by
  unfold Obligations.StepRefusesWordsThatAreNoInstruction
  exact fun s w hh hw => ⟨step_of_decode_error s w _ hh hw, step_of_decode_error s w _ hh hw⟩

/-- Settles O10: a listed word's answer is the check for its unused bits, which is never reserved. -/
theorem reservedWordsAreExactlyTheUnlistedTypeCodes : Obligations.ReservedWordsAreExactlyTheUnlistedTypeCodes := by
  unfold Obligations.ReservedWordsAreExactlyTheUnlistedTypeCodes
  refine fun w => ⟨fun h => ?_, decode_of_unlisted w⟩
  by_contra hl
  obtain ⟨ok, i, hd, -⟩ := decode_of_listed w hl
  exact whenCanonical_ne_reserved ok i (hd.symm.trans h)

/-- Settles O11, from the check for the unused bits in both its outcomes. -/
theorem canonicalWordsAreExactlyTheInstructions : Obligations.CanonicalWordsAreExactlyTheInstructions := by
  unfold Obligations.CanonicalWordsAreExactlyTheInstructions
  intro w hl
  obtain ⟨ok, i, hd, hc⟩ := decode_of_listed w hl
  exact ⟨fun h => ⟨i, hd.trans (if_pos (hc.mp h))⟩, fun h => hd.trans (if_neg fun hok => h (hc.mpr hok))⟩

end Sys2Proof.Machine
end

section
/-! Proofs, family 40_halt: the meaning of HLT, the step that runs it, and the step of a halted state. -/

namespace Sys2Proof.Machine

open Sys2Proof.Claims

/-! ### HLT and the stop mark -/

/-- HLT's arm of the dispatch: its meaning asks neither for kernel mode nor for an operand (R70). -/
@[simp] theorem exec_hlt (s : State) : exec .hlt s = .next { s with halted := true } := rfl

/-- A write to r15 in flight at a HLT is frozen: it does not move the pc (R70, log 15). -/
theorem settleR15_of_halted (s : State) (h : s.halted = true) : settleR15 s = s := by simp [settleR15, h]

/-- Under either operand policy a halted state stops by its own name, before any fetch (R21). -/
theorem stepAs_of_halted (policy : OperandPolicy) (s : State) (h : s.halted = true) :
    stepAs policy s = .fault .halted := by simp [stepAs, h]

/-- The step of a HLT sets the stop mark and counts the step; the pc stays even where a write to r15 is due (R70). -/
theorem step_of_runs_hlt (s : State) (hr : Runs s .hlt) : step s = .next (tick { s with halted := true }) := by
  rw [step_of_runs s .hlt hr rfl, exec_hlt, endStep, settleR15_of_halted _ rfl]

/-! ### The statement -/

/-- Settles O5, from the meaning of HLT, the step that runs it and the fault of a halted state. -/
theorem hltStopsAndChangesNothingElse : Obligations.HltStopsAndChangesNothingElse := by
  unfold Obligations.HltStopsAndChangesNothingElse
  refine ⟨exec_hlt, fun s hr => ?_, fun s t hh hs => ?_⟩
  · exact ⟨_, step_of_runs_hlt s hr, rfl, rfl, rfl, rfl, rfl, fun _ => rfl⟩
  · cases (stepAs_of_halted _ s hh).symm.trans hs

end Sys2Proof.Machine
end

section
/-! Proofs, family 41_jump: the word of each jump, where each jump goes, and the conditions after a SUB as the signed order
of its operands. -/

namespace Sys2Proof.Machine

open Sys2Proof.Claims

/-! ### The word of a jump -/

/-- In the immediate form `ir` and the Reg A place are zero (R55, R56). -/
theorem toNat_toWord_fieldsOfOperandA_imm (op : BitVec 4) (ty : BitVec 3) (v : Word) :
    (fieldsOfOperandA op ty (.imm v)).toWord.toNat = op.toNat * 2 ^ 28 + ty.toNat * 2 ^ 25 + v.toNat * 2 ^ 4 := by
  simp [Fields.toWord_toNat, fieldsOfOperandA]

/-- In the register form `ir` is 1 and the immediate is zero (R55, R56). -/
theorem toNat_toWord_fieldsOfOperandA_reg (op : BitVec 4) (ty : BitVec 3) (r : Reg) :
    (fieldsOfOperandA op ty (.reg r)).toWord.toNat =
      op.toNat * 2 ^ 28 + ty.toNat * 2 ^ 25 + 2 ^ 24 + number r * 2 ^ 20 := by
  simp [Fields.toWord_toNat, fieldsOfOperandA, number]

/-- Every jump is a word of format J with its row's type code (R56, R71). -/
theorem fieldsOf_jump (p : CondRow (Operand → Instr)) (hp : p ∈ jumpTable) :
    ∃ ty : BitVec 3, ty.toNat = p.ty ∧ ∀ target, fieldsOf (p.instr target) = fieldsOfOperandA 1 ty target := by
  simp only [jumpTable, List.mem_cons, List.not_mem_nil, or_false] at hp
  rcases hp with rfl | rfl | rfl | rfl | rfl | rfl | rfl | rfl <;> exact ⟨_, rfl, fun _ => rfl⟩

/-! ### Where a jump goes -/

/-- A jump changes nothing but the pc (R71). -/
theorem jumpWhen_eq (cond : Bool) (target : Operand) (s : State) :
    jumpWhen cond target s = { s with pc := if cond then operandValue .first target s else s.pc + Config.pcStep } := by
  cases cond <;> rfl

/-- JMP's condition "Z !Z" holds whatever Z is (R79, log 33). -/
@[simp] theorem condAlways_eq_true (f : Flags) : condAlways f = true := Bool.or_not_self f.z

/-- JMP is the shared jump, always taken (R79). -/
theorem exec_jmp (target : Operand) (s : State) : exec (.jmp target) s = .next (jumpWhen true target s) :=
  congrArg (fun cond => Host.Outcome.next (jumpWhen cond target s)) (condAlways_eq_true s.flags)

/-- Each jump's meaning is the shared jump under its row's condition (R72 to R79). -/
theorem exec_jump (p : CondRow (Operand → Instr)) (hp : p ∈ jumpTable) (target : Operand) (s : State) :
    exec (p.instr target) s = .next (jumpWhen (p.cond s.flags) target s) := by
  simp only [jumpTable, List.mem_cons, List.not_mem_nil, or_false] at hp
  rcases hp with rfl | rfl | rfl | rfl | rfl | rfl | rfl | rfl
  on_goal 8 => exact exec_jmp target s
  all_goals rfl

/-- A jump to an immediate whose condition says `P` goes there when `P` holds (R71). -/
theorem next_jumpWhen_imm_of_iff {cond : Bool} {P : Prop} [Decidable P] (h : cond = true ↔ P) (v : Word) (t : State) :
    (.next (jumpWhen cond (.imm v) t) : Result) = .next { t with pc := if P then v else t.pc + Config.pcStep } := by
  simp only [jumpWhen_eq, operandValue, h]

/-! ### The conditions after a SUB -/

/-- O after SUB is the signed overflow of the library's subtraction (R111). -/
theorem subOverflow_eq_ssubOverflow (x y : Word) : subOverflow x y = x.ssubOverflow y := by
  rw [subOverflow, BitVec.ssubOverflow_eq]
  cases x.msb <;> cases y.msb <;> cases (x - y).msb <;> rfl

/-- Z after SUB says that the operands are equal (R111, R113). -/
theorem zeroFlag_sub_iff (x y : Word) : zeroFlag (x - y) = true ↔ x = y := by
  rw [zeroFlag, beq_iff_eq]
  exact sub_eq_zero

/-- N after SUB says that A is below B in the signed order, when the subtraction does not overflow (R111, R113). -/
theorem negativeFlag_sub_iff {x y : Word} (ho : subOverflow x y = false) :
    negativeFlag (x - y) = true ↔ x.toInt < y.toInt := by
  have hexact : (x - y).toInt = x.toInt - y.toInt :=
    BitVec.toInt_sub_of_not_ssubOverflow (by rw [← subOverflow_eq_ssubOverflow, ho]; decide)
  rw [negativeFlag, BitVec.msb_eq_toInt, decide_eq_true_iff, hexact, sub_neg]

/-- Z after SUB in the signed values, for the conditions that name an order (R111, R113). -/
theorem zeroFlag_sub_iff_toInt (x y : Word) : zeroFlag (x - y) = true ↔ x.toInt = y.toInt :=
  (zeroFlag_sub_iff x y).trans BitVec.toInt_inj.symm

section
variable (x y : Word) (c o : Bool)

/-- "Z" after SUB (R72). -/
theorem condEq_sub_iff : condEq (resultFlags (x - y) c o) = true ↔ x = y := zeroFlag_sub_iff x y

/-- "!Z" after SUB (R73). -/
theorem condNe_sub_iff : condNe (resultFlags (x - y) c o) = true ↔ x ≠ y := by
  rw [condNe, resultFlags, Bool.not_eq_true', ← Bool.not_eq_true, zeroFlag_sub_iff]

variable {x y} (ho : subOverflow x y = false)
include ho

/-- "N" after SUB (R76). -/
theorem condLt_sub_iff : condLt (resultFlags (x - y) c o) = true ↔ x.toInt < y.toInt := negativeFlag_sub_iff ho

/-- "Z N" after SUB (R77, log 33). -/
theorem condLe_sub_iff : condLe (resultFlags (x - y) c o) = true ↔ x.toInt ≤ y.toInt := by
  simp only [condLe, resultFlags, Bool.or_eq_true, zeroFlag_sub_iff_toInt, negativeFlag_sub_iff ho]
  omega

/-- "!Z & !N" after SUB (R74). -/
theorem condGt_sub_iff : condGt (resultFlags (x - y) c o) = true ↔ y.toInt < x.toInt := by
  simp only [condGt, resultFlags, Bool.and_eq_true, Bool.not_eq_true', ← Bool.not_eq_true, zeroFlag_sub_iff_toInt,
    negativeFlag_sub_iff ho]
  omega

/-- "Z !N" after SUB (R75, log 33). -/
theorem condGe_sub_iff : condGe (resultFlags (x - y) c o) = true ↔ y.toInt ≤ x.toInt := by
  simp only [condGe, resultFlags, Bool.or_eq_true, Bool.not_eq_true', ← Bool.not_eq_true, zeroFlag_sub_iff_toInt,
    negativeFlag_sub_iff ho]
  omega

end

/-- SUB to r0 leaves the flags of the difference and goes on (R11, R113). -/
theorem exec_sub_zero (ra : Reg) (b : Operand) (s : State) :
    exec (.sub ra b .r0) s =
      let x := readReg .first ra s
      let y := operandValue .second b s
      .next (advance { s with flags := resultFlags (x - y) (subCarry x y) (subOverflow x y) }) :=
  congrArg Host.Outcome.next (aluWriteBack_zero _ _ _ s)

/-! ### The statements -/

/-- Settles O13, from the fields of a jump and the word they make in each form. -/
theorem jumpWordsAsTheFormatSays : Obligations.JumpWordsAsTheFormatSays := by
  unfold Obligations.JumpWordsAsTheFormatSays
  intro p hp
  obtain ⟨ty, hty, hfields⟩ := fieldsOf_jump p hp
  rw [← hty]
  refine ⟨fun v => ?_, fun r => ?_⟩
  · rw [encode, hfields]
    exact toNat_toWord_fieldsOfOperandA_imm 1 ty v
  · rw [encode, hfields]
    exact toNat_toWord_fieldsOfOperandA_reg 1 ty r

/-- Settles O22: each jump is the shared jump under its row's condition. -/
theorem jumpsFollowTheirConditions : Obligations.JumpsFollowTheirConditions := by
  unfold Obligations.JumpsFollowTheirConditions
  intro p hp target s
  rw [exec_jump p hp, jumpWhen_eq]

/-- Settles O23, from what each condition says of the operands after a SUB. -/
theorem compareThenJumpFollowsTheSignedOrder : Obligations.CompareThenJumpFollowsTheSignedOrder := by
  unfold Obligations.CompareThenJumpFollowsTheSignedOrder
  intro s ra b v
  refine ⟨_, exec_sub_zero ra b s, ?_, ?_, fun ho => ⟨?_, ?_, ?_, ?_⟩⟩
  · exact next_jumpWhen_imm_of_iff (condEq_sub_iff _ _ _ _) v _
  · exact next_jumpWhen_imm_of_iff (condNe_sub_iff _ _ _ _) v _
  · exact next_jumpWhen_imm_of_iff (condLt_sub_iff _ _ ho) v _
  · exact next_jumpWhen_imm_of_iff (condLe_sub_iff _ _ ho) v _
  · exact next_jumpWhen_imm_of_iff (condGt_sub_iff _ _ ho) v _
  · exact next_jumpWhen_imm_of_iff (condGe_sub_iff _ _ ho) v _

end Sys2Proof.Machine
end

section
/-! Proofs, family 42_atomic: the words of ATS and ATE, what each does in kernel mode and in user mode, and a run of them. -/

namespace Sys2Proof.Machine

open Sys2Proof.Claims

/-! ### ATS and ATE in the two modes -/

/-- In user mode a kernel-mode instruction is the privilege fault with its mnemonic (R83, log 25). -/
theorem whenKernel_of_user (m : String) (s ok : State) (h : s.special.kernel = false) :
    whenKernel m s ok = .fault (.privilegeViolation m) := by
  simp [whenKernel, h]

/-- A kernel-mode instruction that writes the Atomic bit and goes on writes nothing else (R80, R81). -/
theorem whenKernel_writeAtomic (m : String) (b : Bool) (s : State) (h : s.special.kernel = true) :
    whenKernel m s (advance { s with special := { s.special with atomic := b } }) =
      .next { s with special := ⟨b, true⟩, pc := s.pc + Config.pcStep } :=
  (whenKernel_next_iff _ _ _ _).mpr ⟨h, by simp only [advance, h]⟩

/-- ATS in kernel mode (R80). -/
theorem exec_ats_of_kernel (s : State) (h : s.special.kernel = true) :
    exec .ats s = .next { s with special := ⟨true, true⟩, pc := s.pc + Config.pcStep } :=
  whenKernel_writeAtomic "ATS" true s h

/-- ATE in kernel mode (R81). -/
theorem exec_ate_of_kernel (s : State) (h : s.special.kernel = true) :
    exec .ate s = .next { s with special := ⟨false, true⟩, pc := s.pc + Config.pcStep } :=
  whenKernel_writeAtomic "ATE" false s h

/-! ### A run of instructions -/

/-- A run goes on after an instruction that completes, from a state with the special bits the instruction left: the end of
the step writes neither (R16). -/
theorem runAll_cons_of_next {i : Instr} {s t : State} (h : exec i s = .next t) :
    ∃ u, u.special = t.special ∧ ∀ is, runAll (i :: is) s = runAll is u :=
  ⟨tick (settleR15 t), by simp, fun is => by rw [runAll, h, endStep]⟩

/-! ### The statements -/

/-- Settles O25: both are kernel-mode instructions. -/
theorem atomicInUserModeIsAPrivilegeViolation : Obligations.AtomicInUserModeIsAPrivilegeViolation := by
  unfold Obligations.AtomicInUserModeIsAPrivilegeViolation
  exact fun s h => ⟨whenKernel_of_user "ATS" s _ h, whenKernel_of_user "ATE" s _ h⟩

/-- Settles O24: the two words by evaluation, the two modes from the meanings of ATS and ATE. -/
theorem atomicStartAndEndWriteTheAtomicBit : Obligations.AtomicStartAndEndWriteTheAtomicBit := by
  unfold Obligations.AtomicStartAndEndWriteTheAtomicBit
  refine ⟨by decide, by decide, fun s h => ?_, atomicInUserModeIsAPrivilegeViolation⟩
  exact ⟨exec_ats_of_kernel s h, exec_ate_of_kernel s h⟩

/-- Settles O26, one instruction after another: each finds the kernel mode that the one before it left. -/
theorem atomicIsABitAndNotACounter : Obligations.AtomicIsABitAndNotACounter := by
  unfold Obligations.AtomicIsABitAndNotACounter
  intro s hkernel _
  obtain ⟨s1, hs1, hrun1⟩ := runAll_cons_of_next (exec_ats_of_kernel s hkernel)
  obtain ⟨s2, hs2, hrun2⟩ := runAll_cons_of_next (exec_ats_of_kernel s1 (by rw [hs1]))
  obtain ⟨s3, hs3, hrun3⟩ := runAll_cons_of_next (exec_ate_of_kernel s2 (by rw [hs2]))
  refine ⟨⟨s2, ?_, by rw [hs2]⟩, ⟨s3, ?_, by rw [hs3]⟩⟩
  · rw [hrun1, hrun2, runAll]
  · rw [hrun1, hrun2, hrun3, runAll]

end Sys2Proof.Machine
end

section
/-! Proofs, family 43_move: what a byte store leaves, a MOV to r0, and the statements about the words of the Moves,
the byte store and NOP. -/

namespace Sys2Proof.Machine

open Sys2Proof.Claims

/-! ### What the Moves do -/

/-- Storing a byte and going on changes that byte and nothing else (R32, R88). -/
theorem storeDone_advance_writeByte (a : Word) (b : Byte) (s : State) : StoreDone [a] s (advance (writeByte a b s)) :=
  ⟨rfl, rfl, rfl, rfl, rfl, rfl, fun c h => readByte_writeByte_other a c b s (List.mem_singleton.not.mp h),
    rfl, rfl, rfl, rfl⟩

/-- A MOV to r0 discards its value and goes on (R11, R86). -/
theorem exec_movReg_zero (rs : Reg) (s : State) : exec (.movReg rs .r0) s = .next (advance s) :=
  congrArg (fun t => Host.Outcome.next (advance t)) (writeReg_zero (readReg .first rs s) s)

/-! ### The statements -/

/-- Settles O14: a word is the sum of its fields at their places, and a Move's row of `fieldsOf` gives the fields. -/
theorem moveWordsAsTheFormatSays : Obligations.MoveWordsAsTheFormatSays := by
  unfold Obligations.MoveWordsAsTheFormatSays
  intro a b v
  simp only [encode, Fields.toWord_toNat, number]
  refine ⟨?_, ?_, ?_, ?_, ?_, ?_⟩ <;> simp [fieldsOf]

/-- Settles O29: the store completes with one byte written, the lower half of the register as a number. -/
theorem byteStoreWritesTheLowerHalf : Obligations.ByteStoreWritesTheLowerHalf := by
  unfold Obligations.ByteStoreWritesTheLowerHalf
  intro s rs base imm ea
  refine ⟨_, execMvbStore_eq rs imm base s, storeDone_advance_writeByte ea _ s, ?_⟩
  rw [readByte_advance, readByte_writeByte_same]
  exact toNat_lower_half (readReg .first rs s)

/-- Settles O48: the expansion and its word by evaluation, the effect as a MOV to r0. -/
theorem nopChangesOnlyThePc : Obligations.NopChangesOnlyThePc := by
  unfold Obligations.NopChangesOnlyThePc
  exact ⟨rfl, by decide, exec_movReg_zero .r0⟩

end Sys2Proof.Machine
end

section
/-! Proofs, family 44_stack_call: what one word of a run leaves for the next, the words that move r12, a store at r12 and
the load that follows it, and the statements about a push and the pop after it. -/

namespace Sys2Proof.Machine

open Sys2Proof.Claims

/-! ### A run of instructions, each with the end of its step -/

/-- A run goes on from the state its first part ends in. -/
theorem runAll_append {is : List Instr} {s t : State} (h : runAll is s = .next t) (js : List Instr) :
    runAll (is ++ js) s = runAll js t := by
  induction is generalizing s with
  | nil => cases h; rfl
  | cons i is ih =>
    simp only [List.cons_append, runAll] at h ⊢
    split at h
    · exact ih h
    · cases h
    · cases h

/-- With nothing in flight, `k` words of a run have written `rd` with `v` and no other plain register, changed no byte
outside `addrs`, and gone on to the next word (R18, R20, R23). A run that writes no register takes r0 for `rd` (R11). -/
structure RunWrote (k : Nat) (rd : Reg) (v : Word) (addrs : List Word) (s t : State) : Prop where
  written : Stored rd → t.regs.get rd = v
  others : ∀ q : Reg, q ≠ rd → t.regs.get q = s.regs.get q
  bytes : SameBytesOutside addrs s t
  pc : t.pc = s.pc + BitVec.ofNat 16 k
  inFlight : t.inFlight = []

/-- A run that wrote r12 (R12). -/
theorem RunWrote.r12 {k : Nat} {v : Word} {addrs : List Word} {s t : State} (h : RunWrote k .r12 v addrs s t) :
    t.regs.r12 = v :=
  h.written (by simp [Stored])

/-- A run of one instruction that puts nothing in flight: its meaning and the count of the step. -/
theorem runAll_single_of_exec {i : Instr} {s t : State} (h : exec i s = .next t) (ht : t.inFlight = []) :
    runAll [i] s = .next (tick t) := by
  simp only [runAll, h, endStep, settleR15_nil t ht]

/-- What the meaning of an instruction with a destination other than r15 has written, its run has. -/
theorem runAll_single_of_wrote {i : Instr} {rd : Reg} {v : Word} {addrs : List Word} {s t : State}
    (hs : s.inFlight = []) (hrd : rd ≠ .r15) (h : exec i s = .next t) (hw : Wrote rd v s t)
    (hpc : t.pc = s.pc + Config.pcStep) (hb : SameBytesOutside addrs s t) :
    runAll [i] s = .next (tick t) ∧ RunWrote 1 rd v addrs s (tick t) := by
  obtain ⟨hsame, hother, -, -, hflight⟩ := hw
  have ht : t.inFlight = [] := by rw [hflight, if_neg hrd, hs]
  exact ⟨runAll_single_of_exec h ht, hsame, hother, hb, hpc, ht⟩

/-! ### The words that move r12 -/

/-- The end of an ALU instruction writes its destination and no other register (R20, R110). -/
theorem wrote_aluWriteBack (rd : Reg) (r : Word) (c o : Bool) (s : State) : Wrote rd r s (aluWriteBack rd r c o s) :=
  ⟨aluWriteBack_regs_same rd r c o s, fun q => aluWriteBack_regs_other rd q r c o s, aluWriteBack_cycleCounter rd r c o s,
    aluWriteBack_special rd r c o s, aluWriteBack_inFlight rd r c o s⟩

/-- A run of an instruction that ends as an ALU instruction with destination r12. -/
theorem runAll_single_of_aluWriteBack {i : Instr} {r : Word} {c o : Bool} {s : State} (hs : s.inFlight = [])
    (h : exec i s = .next (aluWriteBack .r12 r c o s)) :
    ∃ t, runAll [i] s = .next t ∧ RunWrote 1 .r12 r [] s t :=
  ⟨_, runAll_single_of_wrote hs (by decide) h (wrote_aluWriteBack _ _ _ _ _) (aluWriteBack_pc _ _ _ _ _)
    fun a _ => readByte_of_mem_eq (aluWriteBack_mem _ _ _ _ _) a⟩

/-- The first word of a push lowers r12 (R95, R96). -/
theorem runAll_lower_r12 (n : Word) {s : State} (hs : s.inFlight = []) :
    ∃ t, runAll [.sub .r12 (.imm n) .r12] s = .next t ∧ RunWrote 1 .r12 (s.regs.r12 - n) [] s t :=
  runAll_single_of_aluWriteBack hs rfl

/-- The second word of a pop raises r12 (R97, R98). -/
theorem runAll_raise_r12 (n : Word) {s : State} (hs : s.inFlight = []) :
    ∃ t, runAll [.add .r12 (.imm n) .r12] s = .next t ∧ RunWrote 1 .r12 (s.regs.r12 + n) [] s t :=
  runAll_single_of_aluWriteBack hs rfl

/-! ### A store at r12 and the load that follows it -/

/-- The address of an access at r12 without displacement (R31). -/
theorem effectiveAddress_r12 (k : ReadSlot) (s : State) : effectiveAddress k .r12 0 s = s.regs.r12 :=
  BitVec.add_zero s.regs.r12

/-- A word store at r12 (R90). -/
theorem exec_mvwStore_r12 (rs : Reg) (s : State) :
    exec (.mvwStore rs 0 .r12) s = .next (advance (writeWord s.regs.r12 (readReg .first rs s) s)) := by
  rw [← effectiveAddress_r12 .second s]
  exact execMvwStore_eq rs 0 .r12 s

/-- A byte store at r12 (R88). -/
theorem exec_mvbStore_r12 (rs : Reg) (s : State) :
    exec (.mvbStore rs 0 .r12) s = .next (advance (writeByte s.regs.r12 ((readReg .first rs s).extractLsb' 0 8) s)) := by
  rw [← effectiveAddress_r12 .second s]
  exact execMvbStore_eq rs 0 .r12 s

/-- A word load at r12 (R89). -/
theorem exec_mvwLoad_r12 (rd : Reg) {v : Word} {s : State} (hv : readWord s s.regs.r12 = v) :
    exec (.mvwLoad .r12 0 rd) s = .next (advance (writeReg rd v s)) := by
  rw [← hv, ← effectiveAddress_r12 .first s]
  exact execMvwLoad_eq .r12 0 rd s

/-- A byte load at r12, extended with zeros (R87, log 4). -/
theorem exec_mvbLoad_r12 (rd : Reg) {b : Byte} {s : State} (hb : readByte s s.regs.r12 = b) :
    exec (.mvbLoad .r12 0 rd) s = .next (advance (writeReg rd (BitVec.ofNat 16 b.toNat) s)) := by
  rw [← hb, ← effectiveAddress_r12 .first s, ← extendByte_eq_ofNat (readReg .second rd s)]
  exact execMvbLoad_eq .r12 0 rd s

/-- A store's run writes no register, which is what a write to r0 does (R11). -/
theorem runAll_single_of_storeDone {i : Instr} {addrs : List Word} {s t : State} (hs : s.inFlight = [])
    (h : exec i s = .next t) (hstore : StoreDone addrs s t) :
    runAll [i] s = .next (tick t) ∧ RunWrote 1 .r0 0 addrs s (tick t) := by
  obtain ⟨hregs, hcycle, -, hspecial, hflight, hpc, hbytes, -⟩ := hstore
  have hwrote : Wrote .r0 0 s t :=
    ⟨fun ⟨h0, _⟩ => absurd rfl h0, fun q _ => by rw [hregs], fun _ => hcycle, fun _ => hspecial, hflight⟩
  exact runAll_single_of_wrote hs (by decide) h hwrote hpc hbytes

/-- A load's run writes its destination and no byte. -/
theorem runAll_single_of_moveDone {i : Instr} {rd : Reg} {v : Word} {s t : State} (hs : s.inFlight = [])
    (hrd : rd ≠ .r15) (h : exec i s = .next t) (hload : MoveDone rd v s t) :
    runAll [i] s = .next (tick t) ∧ RunWrote 1 rd v [] s (tick t) := by
  obtain ⟨hwrote, -, hpc, hbytes, -⟩ := hload
  exact runAll_single_of_wrote hs hrd h hwrote hpc fun a _ => hbytes a

/-- After a run that wrote no register but r0, what a run without stores writes is all that both write. -/
theorem RunWrote.trans_of_zero {j k : Nat} {rd : Reg} {v w : Word} {addrs : List Word} {s t u : State}
    (h1 : RunWrote j .r0 w addrs s t) (h2 : RunWrote k rd v [] t u) : RunWrote (j + k) rd v addrs s u where
  written := h2.written
  others q hq := by
    have hregs : t.regs.get q = s.regs.get q := by
      by_cases h0 : q = .r0
      · rw [h0, RegFile.get, RegFile.get]
      · exact h1.others q h0
    rw [h2.others q hq, hregs]
  bytes a ha := by rw [h2.bytes a List.not_mem_nil, h1.bytes a ha]
  pc := by rw [h2.pc, h1.pc, BitVec.add_assoc, BitVec.ofNat_add]
  inFlight := h2.inFlight

/-- A store and a load of `v` after it: `rd` has `v`, and no byte outside the store's has changed. -/
theorem runAll_store_load {st ld : Instr} {rd : Reg} {v : Word} {addrs : List Word} {s t : State} (hs : s.inFlight = [])
    (hrd : rd ≠ .r15) (hst : exec st s = .next t) (hstore : StoreDone addrs s t)
    (hld : exec ld (tick t) = .next (advance (writeReg rd v (tick t)))) :
    ∃ u, runAll [st, ld] s = .next u ∧ RunWrote 2 rd v addrs s u := by
  obtain ⟨hrun, h1⟩ := runAll_single_of_storeDone hs hst hstore
  obtain ⟨hrun', h2⟩ := runAll_single_of_moveDone h1.inFlight hrd hld (moveDone_advance_writeReg rd v (tick t))
  exact ⟨_, (runAll_append hrun [ld]).trans hrun', h1.trans_of_zero h2⟩

/-- A word stored at r12 and loaded from there is the stored word (R33, R89, R90). -/
theorem runAll_store_load_word (rs rd : Reg) {s : State} (hs : s.inFlight = []) (hrd : rd ≠ .r15) :
    ∃ t, runAll [.mvwStore rs 0 .r12, .mvwLoad .r12 0 rd] s = .next t ∧
      RunWrote 2 rd (readReg .first rs s) [s.regs.r12, s.regs.r12 + 1] s t :=
  runAll_store_load hs hrd (exec_mvwStore_r12 rs s) (storeDone_advance_writeWord _ _ s)
    (exec_mvwLoad_r12 rd (readWord_advance_writeWord s.regs.r12 (readReg .first rs s) s))

/-- A byte stored at r12 and loaded from there is the lower half of the stored register (R87, R88, log 4). -/
theorem runAll_store_load_byte (rs rd : Reg) {s : State} (hs : s.inFlight = []) (hrd : rd ≠ .r15) :
    ∃ t, runAll [.mvbStore rs 0 .r12, .mvbLoad .r12 0 rd] s = .next t ∧
      RunWrote 2 rd (BitVec.ofNat 16 ((readReg .first rs s).toNat % 256)) [s.regs.r12] s t := by
  rw [← toNat_lower_half]
  exact runAll_store_load hs hrd (exec_mvbStore_r12 rs s) (storeDone_advance_writeByte _ _ s)
    (exec_mvbLoad_r12 rd (readByte_writeByte_same s.regs.r12 ((readReg .first rs s).extractLsb' 0 8) s))

/-! ### A push and the pop after it -/

/-- What a push of `v` and the pop to `rd` after it leave, each moving r12 by `n` (R102): r12 comes back, or is the popped
value plus `n` where the pop wrote r12 itself. -/
structure PushedAndPopped (n : Word) (rd : Reg) (v : Word) (addrs : List Word) (s t : State) : Prop where
  popped : Stored rd → rd ≠ .r12 → t.regs.get rd = v
  r12_restored : rd ≠ .r12 → t.regs.r12 = s.regs.r12
  r12_popped : rd = .r12 → t.regs.r12 = v + n
  others : ∀ q : Reg, q ≠ rd → q ≠ .r12 → t.regs.get q = s.regs.get q
  bytes : SameBytesOutside addrs s t
  pc : t.pc = s.pc + 4

/-- Lowering r12, a store and a load between, and raising r12, from what each part writes. -/
theorem pushedAndPopped_of_parts {n : Word} {rd : Reg} {v : Word} {addrs : List Word} {s s1 s3 t : State}
    (hlower : RunWrote 1 .r12 (s.regs.r12 - n) [] s s1) (hmid : RunWrote 2 rd v addrs s1 s3)
    (hraise : RunWrote 1 .r12 (s3.regs.r12 + n) [] s3 t) : PushedAndPopped n rd v addrs s t := by
  have hs1 : s1.regs.r12 = s.regs.r12 - n := hlower.r12
  have ht : t.regs.r12 = s3.regs.r12 + n := hraise.r12
  refine ⟨fun hstored hne => ?_, fun hne => ?_, fun heq => ?_, fun q hq hne => ?_, fun a ha => ?_, ?_⟩
  · rw [hraise.others rd hne, hmid.written hstored]
  · have hs3 : s3.regs.r12 = s1.regs.r12 := hmid.others .r12 hne.symm
    rw [ht, hs3, hs1, BitVec.sub_add_cancel]
  · subst heq
    have hs3 : s3.regs.r12 = v := hmid.r12
    rw [ht, hs3]
  · rw [hraise.others q hne, hmid.others q hq, hlower.others q hne]
  · rw [hraise.bytes a List.not_mem_nil, hmid.bytes a ha, hlower.bytes a List.not_mem_nil]
  · rw [hraise.pc, hmid.pc, hlower.pc, BitVec.add_assoc, BitVec.add_assoc]
    rfl

/-- The run of a push by `n` and a pop, given what its store and its load write in the state with r12 lowered. -/
theorem runAll_push_pop (n : Word) {st ld : Instr} {rd : Reg} {value : State → Word} {addrs : Word → List Word}
    {s : State} (hs : s.inFlight = [])
    (hmid : ∀ s1, s1.inFlight = [] →
      ∃ s3, runAll [st, ld] s1 = .next s3 ∧ RunWrote 2 rd (value s1) (addrs s1.regs.r12) s1 s3) :
    ∃ s1 t, runAll [.sub .r12 (.imm n) .r12] s = .next s1 ∧ s1.regs.r12 = s.regs.r12 - n ∧
      runAll [.sub .r12 (.imm n) .r12, st, ld, .add .r12 (.imm n) .r12] s = .next t ∧
      PushedAndPopped n rd (value s1) (addrs (s.regs.r12 - n)) s t := by
  obtain ⟨s1, hrun1, h1⟩ := runAll_lower_r12 n hs
  have hr12 : s1.regs.r12 = s.regs.r12 - n := h1.r12
  obtain ⟨s3, hrun3, h3⟩ := hmid s1 h1.inFlight
  obtain ⟨t, hrun4, h4⟩ := runAll_raise_r12 n h3.inFlight
  rw [hr12] at h3
  refine ⟨s1, t, hrun1, hr12, ?_, pushedAndPopped_of_parts h1 h3 h4⟩
  exact (runAll_append hrun1 _).trans ((runAll_append hrun3 _).trans hrun4)

/-! ### The statements -/

/-- Settles O49: the word between the two moves of r12 is stored and loaded at the lowered r12. -/
theorem pushThenPopWordRestores : Obligations.PushThenPopWordRestores := by
  unfold Obligations.PushThenPopWordRestores
  intro s rs rd hs hrd
  obtain ⟨s1, t, hrun1, hr12, hrun, hdone⟩ :=
    runAll_push_pop 0x10 (addrs := fun a => [a, a + 1]) hs fun s1 h1 => runAll_store_load_word rs rd h1 hrd
  exact ⟨_, _, s1, t, rfl, rfl, hrun1, hr12, hrun, hdone.popped, hdone.r12_restored, hdone.r12_popped, hdone.others,
    hdone.bytes, hdone.pc⟩

/-- Settles O50: as for words; the popped byte as a number is below 256, so raising r12 by 8 does not wrap. -/
theorem pushThenPopByteRestoresTheLowerHalf : Obligations.PushThenPopByteRestoresTheLowerHalf := by
  unfold Obligations.PushThenPopByteRestoresTheLowerHalf
  intro s rs rd hs hrd
  obtain ⟨s1, t, hrun1, hr12, hrun, hdone⟩ :=
    runAll_push_pop 0x8 (addrs := fun a => [a]) hs fun s1 h1 => runAll_store_load_byte rs rd h1 hrd
  refine ⟨_, _, s1, t, rfl, rfl, hrun1, hr12, hrun, fun hstored hne => ?_, hdone.r12_restored, fun heq => ?_, hdone.others,
    hdone.bytes, hdone.pc⟩
  · rw [hdone.popped hstored hne, BitVec.toNat_ofNat]
    omega
  · rw [hdone.r12_popped heq, BitVec.toNat_add, BitVec.toNat_ofNat]
    have h8 : (0x8 : Word).toNat = 8 := rfl
    omega

end Sys2Proof.Machine
end

section
/-! Proofs, family 45_system: the two instructions to which the spec gives no effect (R106, R107). -/

namespace Sys2Proof.Machine

open Sys2Proof.Claims

/-- Settles O47: the arm of either instruction in `exec` is its refusal, which reads neither the state nor an operand. -/
theorem returnFromTrapAndTimerAreRefused : Obligations.ReturnFromTrapAndTimerAreRefused := by
  unfold Obligations.ReturnFromTrapAndTimerAreRefused
  intro s ty ir ra imm
  exact ⟨rfl, rfl⟩

end Sys2Proof.Machine
end

section
/-! Proofs, family 46_alu: what an ALU instruction leaves, the flags of R111 in the bits and in the signed values of the
operands, each operation on words as arithmetic on numbers, and the statements about the ten ALU instructions and NOT. -/

namespace Sys2Proof.Machine

open Sys2Proof.Claims

/-! ### What an ALU instruction leaves -/

/-- N is the bit 15 that R111 names. -/
theorem negativeFlag_eq_getLsbD (r : Word) : negativeFlag r = r.getLsbD 15 := BitVec.msb_eq_getLsbD_last r

/-- Z and N as R111 words them, beside the C and O given. -/
theorem resultFlags_eq (r : Word) (c o : Bool) : resultFlags r c o = ⟨decide (r = 0), r.getLsbD 15, c, o⟩ :=
  congrArg (fun n => (⟨zeroFlag r, n, c, o⟩ : Flags)) (negativeFlag_eq_getLsbD r)

/-- The end of every ALU instruction writes its destination, its flags and the pc, and nothing else (R110, R111). -/
theorem aluDone_aluWriteBack (rd : Reg) (r : Word) (c o : Bool) (s : State) :
    AluDone rd r c o s (aluWriteBack rd r c o s) :=
  ⟨wrote_aluWriteBack rd r c o s, fun h => (aluWriteBack_flags rd r c o s h).trans (resultFlags_eq r c o),
    aluWriteBack_pc rd r c o s, fun a => readByte_of_mem_eq (aluWriteBack_mem rd r c o s) a,
    aluWriteBack_imem rd r c o s, aluWriteBack_halted rd r c o s, aluWriteBack_trapTimer rd r c o s,
    aluWriteBack_draws rd r c o s⟩

/-- The same for an instruction whose C and O are drawn (R111, log 19). -/
theorem aluDone_aluWriteBackDrawn (rd : Reg) (r a b : Word) (s : State) :
    AluDone rd r (drawnCarry a b s) (drawnOverflow a b s) s (aluWriteBackDrawn rd r a b s) :=
  aluDone_aluWriteBack rd r _ _ s

/-- An instruction that ends by writing back `r`, with the result and the flags written as the spec writes them. -/
theorem exists_aluDone {i : Instr} {rd : Reg} {r r' : Word} {c c' o o' : Bool} {s : State}
    (h : exec i s = .next (aluWriteBack rd r c o s)) (hr : r = r') (hc : c = c') (ho : o = o') :
    ∃ t, exec i s = .next t ∧ AluDone rd r' c' o' s t := by
  subst hr hc ho
  exact ⟨_, h, aluDone_aluWriteBack rd r c o s⟩

/-- The same for an instruction whose C and O are drawn (R111, log 19). -/
theorem exists_aluDone_drawn {i : Instr} {rd : Reg} {r r' a b : Word} {s : State}
    (h : exec i s = .next (aluWriteBackDrawn rd r a b s)) (hr : r = r') :
    ∃ t c o, exec i s = .next t ∧ AluDone rd r' c o s t := by
  obtain ⟨t, ht, hdone⟩ := exists_aluDone h hr rfl rfl
  exact ⟨t, _, _, ht, hdone⟩

/-! ### The overflow flags -/

/-- O after ADD is the signed overflow of the library's addition (R111). -/
theorem addOverflow_eq_saddOverflow (x y : Word) : addOverflow x y = x.saddOverflow y :=
  (BitVec.saddOverflow_eq x y).symm

/-- O after ADD in the bits 15 of the operands and the sum (R111). -/
theorem addOverflow_eq_decide (x y : Word) :
    addOverflow x y = decide (x.getLsbD 15 = y.getLsbD 15 ∧ (x + y).getLsbD 15 ≠ x.getLsbD 15) := by
  rw [Bool.eq_iff_iff, decide_eq_true_iff, addOverflow, Bool.and_eq_true, beq_iff_eq, bne_iff_ne]
  simp only [BitVec.msb_eq_getLsbD_last, Nat.reduceSub]

/-- O after SUB in the bits 15 of the operands and the difference (R111). -/
theorem subOverflow_eq_decide (x y : Word) :
    subOverflow x y = decide (x.getLsbD 15 ≠ y.getLsbD 15 ∧ (x - y).getLsbD 15 ≠ x.getLsbD 15) := by
  rw [Bool.eq_iff_iff, decide_eq_true_iff, subOverflow, Bool.and_eq_true, bne_iff_ne, bne_iff_ne]
  simp only [BitVec.msb_eq_getLsbD_last, Nat.reduceSub]

/-- The library's signed overflow of an addition says that the exact sum does not fit in 16 bits. -/
theorem saddOverflow_iff (x y : Word) :
    x.saddOverflow y = true ↔ ¬ (-32768 ≤ x.toInt + y.toInt ∧ x.toInt + y.toInt ≤ 32767) := by
  rw [BitVec.saddOverflow, Bool.or_eq_true, decide_eq_true_iff, decide_eq_true_iff]
  omega

/-- The library's signed overflow of a subtraction says that the exact difference does not fit in 16 bits. -/
theorem ssubOverflow_iff (x y : Word) :
    x.ssubOverflow y = true ↔ ¬ (-32768 ≤ x.toInt - y.toInt ∧ x.toInt - y.toInt ≤ 32767) := by
  rw [BitVec.ssubOverflow, Bool.or_eq_true, decide_eq_true_iff, decide_eq_true_iff]
  omega

/-! ### The operations on words as arithmetic on numbers -/

/-- ADD's result (R112). -/
theorem add_eq_ofNat_mod (x y : Word) : x + y = BitVec.ofNat 16 ((x.toNat + y.toNat) % 2 ^ 16) :=
  BitVec.eq_of_toNat_eq (by rw [BitVec.toNat_add, BitVec.toNat_ofNat, Nat.mod_mod])

/-- SUB's result (R113). -/
theorem sub_eq_ofInt (x y : Word) : x - y = BitVec.ofInt 16 ((x.toNat : Int) - (y.toNat : Int)) := by
  rw [Int.sub_eq_add_neg, BitVec.ofInt_add, BitVec.ofInt_neg, BitVec.ofInt_natCast, BitVec.ofInt_natCast,
    ← BitVec.sub_eq_add_neg, BitVec.ofNat_toNat, BitVec.ofNat_toNat, BitVec.setWidth_eq, BitVec.setWidth_eq]

/-- A logical right shift divides (R114). -/
theorem ushiftRight_eq_ofNat (x : Word) (n : Nat) : x >>> n = BitVec.ofNat 16 (x.toNat / 2 ^ n) := by
  rw [← Nat.shiftRight_eq_div_pow, ← BitVec.toNat_ushiftRight, BitVec.ofNat_toNat, BitVec.setWidth_eq]

/-- An arithmetic right shift divides the signed value, rounding down (R115). -/
theorem sshiftRight_eq_ofInt (x : Word) (n : Nat) : x.sshiftRight n = BitVec.ofInt 16 (x.toInt / (2 : Int) ^ n) := by
  rw [BitVec.sshiftRight, Int.shiftRight_eq_div_pow]
  norm_cast

/-- A left shift multiplies modulo 2^16 (R116). -/
theorem shiftLeft_eq_ofNat (x : Word) (n : Nat) : x <<< n = BitVec.ofNat 16 (x.toNat * 2 ^ n % 2 ^ 16) :=
  BitVec.eq_of_toNat_eq (by rw [BitVec.toNat_shiftLeft, Nat.shiftLeft_eq, BitVec.toNat_ofNat, Nat.mod_mod])

/-- A single bit extended to a word is the number 0 or 1. -/
theorem zeroExtend_ofBool_eq_ofNat (b : Bool) : (BitVec.ofBool b).zeroExtend 16 = BitVec.ofNat 16 b.toNat := by
  cases b <;> rfl

/-- Bit n of a word, as the number 0 or 1, is its quotient by 2^n modulo 2 (R117). -/
theorem zeroExtend_bit_eq_ofNat (x : Word) (n : Nat) :
    (BitVec.ofBool (x.getLsbD n)).zeroExtend 16 = BitVec.ofNat 16 (x.toNat / 2 ^ n % 2) :=
  (zeroExtend_ofBool_eq_ofNat _).trans (congrArg (BitVec.ofNat 16) (Nat.toNat_testBit x.toNat n))

/-- RSL's result for either value of SHIFT_OVER (R114, log 12). -/
theorem shiftRightLogicalAs_eq_ofNat (how : ShiftOver) (x y : Word) :
    shiftRightLogicalAs how x y =
      BitVec.ofNat 16
        (if y.toNat ≤ 15 then x.toNat / 2 ^ y.toNat
         else match how with
          | .mod16 => x.toNat / 2 ^ (y.toNat % 16)
          | .saturate => 0) := by
  unfold shiftRightLogicalAs
  split
  · exact ushiftRight_eq_ofNat x _
  · cases how
    case mod16 => exact ushiftRight_eq_ofNat x _
    case saturate => rfl

/-- RSA's result for either value of SHIFT_OVER (R115, log 12): saturated, it is the sign in every bit. -/
theorem shiftRightArithAs_eq_ofInt (how : ShiftOver) (x y : Word) :
    shiftRightArithAs how x y =
      BitVec.ofInt 16
        (if y.toNat ≤ 15 then x.toInt / (2 : Int) ^ y.toNat
         else match how with
          | .mod16 => x.toInt / (2 : Int) ^ (y.toNat % 16)
          | .saturate => if x.toInt < 0 then -1 else 0) := by
  unfold shiftRightArithAs
  split
  · exact sshiftRight_eq_ofInt x _
  · cases how
    case mod16 => exact sshiftRight_eq_ofInt x _
    case saturate =>
      rw [BitVec.msb_eq_toInt]
      by_cases hneg : x.toInt < 0 <;> simp [hneg]

/-- LSH's result for either value of SHIFT_OVER (R116, log 12). -/
theorem shiftLeftAs_eq_ofNat (how : ShiftOver) (x y : Word) :
    shiftLeftAs how x y =
      BitVec.ofNat 16
        (if y.toNat ≤ 15 then x.toNat * 2 ^ y.toNat % 2 ^ 16
         else match how with
          | .mod16 => x.toNat * 2 ^ (y.toNat % 16) % 2 ^ 16
          | .saturate => 0) := by
  unfold shiftLeftAs
  split
  · exact shiftLeft_eq_ofNat x _
  · cases how
    case mod16 => exact shiftLeft_eq_ofNat x _
    case saturate => rfl

/-- EXB's result for either value of EXB_OVER (R117, log 13). -/
theorem extractBitAs_eq_ofNat (how : ExbOver) (x y : Word) :
    extractBitAs how x y =
      BitVec.ofNat 16
        (if y.toNat ≤ 15 then x.toNat / 2 ^ y.toNat % 2
         else match how with
          | .mod16 => x.toNat / 2 ^ (y.toNat % 16) % 2
          | .zero => 0) := by
  unfold extractBitAs
  split
  · exact zeroExtend_bit_eq_ofNat x _
  · cases how
    case mod16 => exact zeroExtend_bit_eq_ofNat x _
    case zero => rfl

/-! ### The number of ones -/

/-- Counting the indices below `n` at which `p` holds is summing `p` as 0 or 1. -/
theorem countP_range_eq_sum (p : Nat → Bool) (n : Nat) :
    (List.range n).countP p = (Finset.range n).sum fun i => (p i).toNat := by
  induction n with
  | zero => rfl
  | succ n ih =>
    rw [List.range_succ, List.countP_append, Finset.sum_range_succ, ih, List.countP_singleton]
    cases p n <;> rfl

/-- The number of ones of a word (R121), as a number. -/
def onesOf (x : Word) : Nat := (Finset.range 16).sum fun i => (x.getLsbD i).toNat

/-- CNT's result is the number of ones (R121). -/
theorem countOnes_eq_ofNat_onesOf (x : Word) : countOnes x = BitVec.ofNat 16 (onesOf x) :=
  congrArg (BitVec.ofNat 16) (countP_range_eq_sum _ 16)

theorem onesOf_le (x : Word) : onesOf x ≤ 16 := by
  have h := Finset.sum_le_card_nsmul (Finset.range 16) (fun i => (x.getLsbD i).toNat) 1 fun i _ => Bool.toNat_le _
  simpa [onesOf] using h

theorem onesOf_eq_zero_iff (x : Word) : onesOf x = 0 ↔ x = 0 := by
  rw [onesOf, Finset.sum_eq_zero_iff]
  constructor
  · intro h
    refine BitVec.eq_of_getLsbD_eq fun i hi => ?_
    exact (Bool.toNat_eq_zero.mp (h i (Finset.mem_range.mpr hi))).trans BitVec.getLsbD_zero.symm
  · rintro rfl i -
    simp

/-- The number of ones fits in a word, so CNT's result is that number. -/
theorem toNat_ofNat_onesOf (x : Word) : (BitVec.ofNat 16 (onesOf x)).toNat = onesOf x := by
  rw [BitVec.toNat_ofNat, Nat.mod_eq_of_lt]
  have h := onesOf_le x
  omega

/-! ### The statements -/

/-- Settles O37: ADD writes back the word sum, its carry and its overflow. -/
theorem addResultAndFlags : Obligations.AddResultAndFlags := by
  unfold Obligations.AddResultAndFlags
  intro s ra rd b x y r
  have hr : x + y = r := add_eq_ofNat_mod x y
  refine exists_aluDone rfl hr rfl ?_
  rw [← hr]
  exact addOverflow_eq_decide x y

/-- Settles O38: SUB writes back the word difference, the carry of the open SUB_CARRY and the overflow. -/
theorem subResultAndFlags : Obligations.SubResultAndFlags := by
  unfold Obligations.SubResultAndFlags
  intro s ra rd b x y r
  have hr : x - y = r := sub_eq_ofInt x y
  refine exists_aluDone rfl hr rfl ?_
  rw [← hr]
  exact subOverflow_eq_decide x y

/-- Settles O39: both overflows are the library's, which compare the exact result with the bounds. -/
theorem overflowFlagsAreSignedOverflow : Obligations.OverflowFlagsAreSignedOverflow := by
  unfold Obligations.OverflowFlagsAreSignedOverflow
  intro a b
  rw [addOverflow_eq_saddOverflow, subOverflow_eq_ssubOverflow]
  exact ⟨saddOverflow_iff a b, ssubOverflow_iff a b⟩

/-- Settles O40: a logical right shift is a division. -/
theorem logicalRightShiftResult : Obligations.LogicalRightShiftResult := by
  unfold Obligations.LogicalRightShiftResult
  intro s ra rd b x y
  exact exists_aluDone_drawn rfl (shiftRightLogicalAs_eq_ofNat Config.shiftOver x y)

/-- Settles O41: an arithmetic right shift is a division of the signed value that rounds down. -/
theorem arithmeticRightShiftResult : Obligations.ArithmeticRightShiftResult := by
  unfold Obligations.ArithmeticRightShiftResult
  intro s ra rd b x y
  exact exists_aluDone_drawn rfl (shiftRightArithAs_eq_ofInt Config.shiftOver x y)

/-- Settles O42: a left shift is a multiplication modulo 2^16. -/
theorem leftShiftResult : Obligations.LeftShiftResult := by
  unfold Obligations.LeftShiftResult
  intro s ra rd b x y
  exact exists_aluDone_drawn rfl (shiftLeftAs_eq_ofNat Config.shiftOver x y)

/-- Settles O43: bit n of a word is its quotient by 2^n modulo 2. -/
theorem extractBitResult : Obligations.ExtractBitResult := by
  unfold Obligations.ExtractBitResult
  intro s ra rd b x y
  exact exists_aluDone_drawn rfl (extractBitAs_eq_ofNat Config.exbOver x y)

/-- Settles O44: each instruction writes back the library's operation on words, which is bit by bit. -/
theorem bitwiseResults : Obligations.BitwiseResults := by
  unfold Obligations.BitwiseResults
  intro s ra rd b x y
  refine ⟨⟨_, x &&& y, _, _, rfl, aluDone_aluWriteBackDrawn rd _ x y s, fun i _ => ?_⟩,
    ⟨_, x ||| y, _, _, rfl, aluDone_aluWriteBackDrawn rd _ x y s, fun i _ => ?_⟩,
    ⟨_, x ^^^ y, _, _, rfl, aluDone_aluWriteBackDrawn rd _ x y s, fun i _ => ?_⟩⟩
  · exact BitVec.getLsbD_and
  · exact BitVec.getLsbD_or
  · exact BitVec.getLsbD_xor

/-- Settles O45: CNT counts the ones of its first operand and never reads the second. -/
theorem countOnesResult : Obligations.CountOnesResult := by
  unfold Obligations.CountOnesResult
  intro s ra rd b x r
  have hr : r.toNat = onesOf x := toNat_ofNat_onesOf x
  refine ⟨exists_aluDone_drawn rfl (countOnes_eq_ofNat_onesOf x), ?_, ?_, rfl⟩
  · rw [hr]
    exact onesOf_le x
  · rw [← onesOf_eq_zero_iff x, ← hr]
    exact BitVec.toNat_eq

/-- Settles O53: NOT is XOR with the word of sixteen ones. -/
theorem notInvertsEveryBit : Obligations.NotInvertsEveryBit := by
  unfold Obligations.NotInvertsEveryBit
  intro s rs rd
  refine ⟨_, _, _, _, _, rfl, rfl, aluDone_aluWriteBackDrawn rd _ _ _ s, fun k hk => ?_⟩
  have hones : (BitVec.allOnes 16).getLsbD k = true := BitVec.getLsbD_allOnes.trans (decide_eq_true hk)
  exact BitVec.getLsbD_xor.trans ((congrArg _ hones).trans (Bool.xor_true _))

end Sys2Proof.Machine
end

section
/-! Proofs, family 47_set: the word of each set instruction. -/

namespace Sys2Proof.Machine

open Sys2Proof.Claims

/-! ### The word of a format L or S instruction in its two forms, and the fields of a set -/

/-- In the immediate form of format L or S `ir` is zero (R55, R56). -/
theorem toNat_toWord_fieldsOfOperandB_imm (op : BitVec 4) (ty : BitVec 3) (ra : BitVec 4) (v : Word) (rd : Reg) :
    (fieldsOfOperandB op ty ra (.imm v) rd).toWord.toNat =
      op.toNat * 2 ^ 28 + ty.toNat * 2 ^ 25 + ra.toNat * 2 ^ 20 + v.toNat * 2 ^ 4 + number rd := by
  simp [Fields.toWord_toNat, fieldsOfOperandB, number]

/-- Reg B above twelve zeros is its number at bit 12 of the immediate field (R51). -/
theorem toNat_append_z12 (r : BitVec 4) : (r ++ (0 : BitVec 12)).toNat = r.toNat * 2 ^ 12 :=
  (BitVec.toNat_append r 0).trans ((Nat.or_zero _).trans (Nat.shiftLeft_eq _ _))

/-- In the register form of format L or S `ir` is 1 and the second operand's number stands at bit 16 (R55, R56). -/
theorem toNat_toWord_fieldsOfOperandB_reg (op : BitVec 4) (ty : BitVec 3) (ra : BitVec 4) (r rd : Reg) :
    (fieldsOfOperandB op ty ra (.reg r) rd).toWord.toNat =
      op.toNat * 2 ^ 28 + ty.toNat * 2 ^ 25 + 2 ^ 24 + ra.toNat * 2 ^ 20 + number r * 2 ^ 16 + number rd := by
  have hir : (1 : BitVec 1).toNat = 1 := rfl
  simp only [Fields.toWord_toNat, fieldsOfOperandB, toNat_append_z12, number, hir]
  omega

/-- Every set is a word of format S with its row's type code and zeros in the Reg A place (R56, R130). -/
theorem fieldsOf_set (p : CondRow (Operand → Reg → Instr)) (hp : p ∈ setTable) :
    ∃ ty : BitVec 3, ty.toNat = p.ty ∧ ∀ src rd, fieldsOf (p.instr src rd) = fieldsOfOperandB 7 ty 0 src rd := by
  simp only [setTable, List.mem_cons, List.not_mem_nil, or_false] at hp
  rcases hp with rfl | rfl | rfl | rfl | rfl | rfl | rfl | rfl <;> exact ⟨_, rfl, fun _ _ => rfl⟩

/-! ### The statements -/

/-- Settles O15, from the fields of a set and the word they make in each form. -/
theorem setWordsAsTheFormatSays : Obligations.SetWordsAsTheFormatSays := by
  unfold Obligations.SetWordsAsTheFormatSays
  intro p hp rd
  obtain ⟨ty, hty, hfields⟩ := fieldsOf_set p hp
  rw [← hty]
  refine ⟨fun v => ?_, fun r => ?_⟩
  · simp [encode, hfields, toNat_toWord_fieldsOfOperandB_imm]
  · simp [encode, hfields, toNat_toWord_fieldsOfOperandB_reg]

end Sys2Proof.Machine
end

section
/-! Proofs, family 30_encoding, the round trip: an operand and the fields it stands in, each group's decoder against the
encoder's row, and the statements about the words that are instructions. -/

namespace Sys2Proof.Machine

open Sys2Proof.Claims

/-! ### An operand and the fields it stands in -/

/-- The operand put into a word of format J or I is the one read from it (R55). -/
@[simp] theorem operandA_fieldsOfOperandA (op : BitVec 4) (ty : BitVec 3) (t : Operand) :
    (fieldsOfOperandA op ty t).operandA = t := by
  cases t <;> simp [fieldsOfOperandA, Fields.operandA]

/-- The encoder leaves the operand field that `ir` does not select zero (R57). -/
@[simp] theorem operandACanonical_fieldsOfOperandA (op : BitVec 4) (ty : BitVec 3) (t : Operand) :
    (fieldsOfOperandA op ty t).operandACanonical = true := by
  cases t <;> rfl

@[simp] theorem fieldsOfOperandA_ty (op : BitVec 4) (ty : BitVec 3) (t : Operand) :
    (fieldsOfOperandA op ty t).ty = ty := by
  cases t <;> rfl
@[simp] theorem fieldsOfOperandA_rd (op : BitVec 4) (ty : BitVec 3) (t : Operand) :
    (fieldsOfOperandA op ty t).rd = 0 := by
  cases t <;> rfl

/-- A canonical word of format J or I is the one of its opcode, type code and operand (R56, R57). -/
theorem fieldsOfOperandA_operandA (f : Fields) (h : f.operandACanonical = true) :
    fieldsOfOperandA f.op f.ty f.operandA = f := by
  obtain ⟨op, ty, ir, ra, imm, rd⟩ := f
  rcases BitVec.eq_zero_or_eq_one ir with rfl | rfl <;>
    simp_all [Fields.operandACanonical, Fields.operandA, fieldsOfOperandA]

section
variable (op : BitVec 4) (ty : BitVec 3) (ra : BitVec 4) (b : Operand) (rd : Reg)

/-- The second operand put into a word of format L or S is the one read from it (R55). -/
@[simp] theorem operandB_fieldsOfOperandB : (fieldsOfOperandB op ty ra b rd).operandB = b := by
  cases b <;> simp [fieldsOfOperandB, Fields.operandB, Fields.rb]

/-- The encoder leaves the twelve bits after Reg B zero (R57). -/
@[simp] theorem operandBCanonical_fieldsOfOperandB : (fieldsOfOperandB op ty ra b rd).operandBCanonical = true := by
  cases b <;> simp [fieldsOfOperandB, Fields.operandBCanonical, Fields.z12]

@[simp] theorem fieldsOfOperandB_ty : (fieldsOfOperandB op ty ra b rd).ty = ty := by cases b <;> rfl
@[simp] theorem fieldsOfOperandB_ra : (fieldsOfOperandB op ty ra b rd).ra = ra := by cases b <;> rfl
@[simp] theorem fieldsOfOperandB_rd : (fieldsOfOperandB op ty ra b rd).rd = rd.toBits := by cases b <;> rfl

end

/-- A canonical word of format L or S is the one of its opcode, type code, registers and operand (R56, R57). -/
theorem fieldsOfOperandB_operandB (f : Fields) (h : f.operandBCanonical = true) :
    fieldsOfOperandB f.op f.ty f.ra f.operandB (Reg.ofBits f.rd) = f := by
  have himm : f.rb ++ f.z12 = f.imm := BitVec.extractLsb'_append_extractLsb' (w := 4) (len := 12)
  obtain ⟨op, ty, ir, ra, imm, rd⟩ := f
  rcases BitVec.eq_zero_or_eq_one ir with rfl | rfl
  · simp [Fields.operandB, fieldsOfOperandB]
  · have hz : Fields.z12 ⟨op, ty, 1#1, ra, imm, rd⟩ = 0 := by simpa [Fields.operandBCanonical] using h
    rw [hz] at himm
    simpa [Fields.operandB, fieldsOfOperandB] using himm

/-- A checked word is the instruction it is checked for (R57). -/
theorem whenCanonical_ok_iff (ok : Bool) (i j : Instr) : whenCanonical ok i = .ok j ↔ ok = true ∧ i = j := by
  cases ok <;> simp [whenCanonical]

/-! ### Encoding, then decoding -/

/-- The fields of a well-formed instruction decode to it. -/
theorem decodeFields_fieldsOf (i : Instr) (h : i.wellFormed = true) : decodeFields (fieldsOf i) = .ok i := by
  cases i with
  | hlt | ats | ate | rft => rfl
  | jeq | jne | jgt | jge | jlt | jle | jov | jmp => simp [fieldsOf, decodeFields, decodeJump, whenCanonical]
  | int => simp [fieldsOf, decodeFields, decodeInt, whenCanonical]
  | tmr ty ir ra imm =>
    have hty : ty % 8 = ty := Nat.mod_eq_of_lt (by simpa [Instr.wellFormed, timerTypeFits] using h)
    have hir : (BitVec.ofBool ir == 1#1) = ir := by cases ir <;> rfl
    simp [fieldsOf, decodeFields, decodeUnstated, decodeTmr, Config.opcRft, Config.opcTmr, whenCanonical, hty, hir]
  | movImm | movReg | mvbLoad | mvbStore | mvwLoad | mvwStore =>
    simp [fieldsOf, decodeFields, decodeMove, whenCanonical]
  | seq | sne | sgt | sge | slt | sle | sov | scr => simp [fieldsOf, decodeFields, decodeSet, whenCanonical]
  | add | sub | rsl | rsa => simp [fieldsOf, decodeFields, decodeAlu2, whenCanonical]
  | lsh | exb | and | orr | xor | cnt => simp [fieldsOf, decodeFields, decodeAlu1, whenCanonical]

/-! ### Decoding, then encoding -/

/-- The instruction is well-formed and the encoder gives it these fields. -/
def Encodes (i : Instr) (f : Fields) : Prop := i.wellFormed = true ∧ fieldsOf i = f

/-- The type codes (R51). -/
theorem typeCode_cases (ty : BitVec 3) :
    ty = 0 ∨ ty = 1 ∨ ty = 2 ∨ ty = 3 ∨ ty = 4 ∨ ty = 5 ∨ ty = 6 ∨ ty = 7 := by
  revert ty
  decide

/-- A group with the one type code 000 accepts its canonical words (R57, R58). -/
theorem canonical_of_one_type {f : Fields} {ok : Bool} {i j : Instr}
    (h : (if f.ty = 0 then whenCanonical ok i else .error .reservedEncoding) = .ok j) : f.ty = 0 ∧ ok = true ∧ i = j := by
  split at h
  next hty => exact ⟨hty, (whenCanonical_ok_iff ok i j).mp h⟩
  next => cases h

/-- A group with the type codes 000 and 001 accepts their canonical words (R57, R58). -/
theorem canonical_of_two_types {f : Fields} {ok : Bool} {i j k : Instr}
    (h : (match f.ty.toNat with
      | 0 => whenCanonical ok i
      | 1 => whenCanonical ok j
      | _ => .error .reservedEncoding) = .ok k) : ok = true ∧ (f.ty = 0 ∧ i = k ∨ f.ty = 1 ∧ j = k) := by
  split at h
  next hty =>
    obtain ⟨hc, hi⟩ := (whenCanonical_ok_iff ok i k).mp h
    exact ⟨hc, .inl ⟨BitVec.eq_of_toNat_eq hty, hi⟩⟩
  next hty =>
    obtain ⟨hc, hj⟩ := (whenCanonical_ok_iff ok j k).mp h
    exact ⟨hc, .inr ⟨BitVec.eq_of_toNat_eq hty, hj⟩⟩
  next => cases h

/-- An instruction without operands has a word of zeros after its type code (R57). -/
theorem encodes_of_zeros {f : Fields} {i : Instr} (hw : i.wellFormed = true) (hi : fieldsOf i = ⟨f.op, f.ty, 0, 0, 0, 0⟩)
    (hc : (f.ir == 0 && f.ra == 0 && f.imm == 0 && f.rd == 0) = true) : Encodes i f := by
  obtain ⟨op, ty, ir, ra, imm, rd⟩ := f
  simp only [Bool.and_eq_true, beq_iff_eq] at hc
  obtain ⟨⟨⟨rfl, rfl⟩, rfl⟩, rfl⟩ := hc
  exact ⟨hw, hi⟩

/-- An instruction of format J or I (R56). -/
theorem encodes_of_operandA {f : Fields} {i : Instr} (hw : i.wellFormed = true)
    (hi : fieldsOf i = fieldsOfOperandA f.op f.ty f.operandA) (hc : f.operandACanonical = true) : Encodes i f :=
  ⟨hw, hi.trans (fieldsOfOperandA_operandA f hc)⟩

/-- An instruction of format L or S (R56). -/
theorem encodes_of_operandB {f : Fields} {i : Instr} (hw : i.wellFormed = true)
    (hi : fieldsOf i = fieldsOfOperandB f.op f.ty f.ra f.operandB (Reg.ofBits f.rd)) (hc : f.operandBCanonical = true) :
    Encodes i f :=
  ⟨hw, hi.trans (fieldsOfOperandB_operandB f hc)⟩

theorem encodes_of_decodeHalt {f : Fields} {i : Instr} (hop : f.op = 0) (h : decodeHalt f = .ok i) : Encodes i f := by
  obtain ⟨hty, hc, rfl⟩ := canonical_of_one_type h
  exact encodes_of_zeros rfl (by rw [hop, hty, fieldsOf]) hc

theorem encodes_of_decodeRft {f : Fields} {i : Instr} (hop : f.op = Config.opcRft) (h : decodeRft f = .ok i) :
    Encodes i f := by
  obtain ⟨hty, hc, rfl⟩ := canonical_of_one_type h
  exact encodes_of_zeros rfl (by rw [hop, hty, fieldsOf]) hc

theorem encodes_of_decodeAtomic {f : Fields} {i : Instr} (hop : f.op = 2) (h : decodeAtomic f = .ok i) :
    Encodes i f := by
  obtain ⟨hc, ⟨hty, rfl⟩ | ⟨hty, rfl⟩⟩ := canonical_of_two_types h <;>
    exact encodes_of_zeros rfl (by rw [hop, hty, fieldsOf]) hc

theorem encodes_of_decodeInt {f : Fields} {i : Instr} (hop : f.op = 3) (h : decodeInt f = .ok i) : Encodes i f := by
  obtain ⟨hty, hc, rfl⟩ := canonical_of_one_type h
  exact encodes_of_operandA rfl (by rw [hop, hty, fieldsOf]) hc

theorem encodes_of_decodeTmr {f : Fields} {i : Instr} (hop : f.op = Config.opcTmr) (h : decodeTmr f = .ok i) :
    Encodes i f := by
  obtain ⟨hc, rfl⟩ := (whenCanonical_ok_iff _ _ _).mp h
  have hir : ∀ b : BitVec 1, BitVec.ofBool (b == 1) = b := by decide
  have hrd : f.rd = 0 := by simpa using hc
  exact ⟨decide_eq_true f.ty.isLt, by simp only [fieldsOf, hir, ← hop, ← hrd, BitVec.ofNat_toNat, BitVec.setWidth_eq,
    Reg.toBits_ofBits]⟩

theorem encodes_of_decodeJump {f : Fields} {i : Instr} (hop : f.op = 1) (h : decodeJump f = .ok i) : Encodes i f := by
  obtain ⟨hc, hi⟩ := (whenCanonical_ok_iff _ _ _).mp h
  rcases typeCode_cases f.ty with hty | hty | hty | hty | hty | hty | hty | hty <;>
    (rw [hty] at hi
     subst hi
     exact encodes_of_operandA rfl (by rw [hop, hty]; rfl) hc)

theorem encodes_of_decodeMove {f : Fields} {i : Instr} (hop : f.op = 6) (h : decodeMove f = .ok i) : Encodes i f := by
  obtain ⟨op, ty, ir, ra, imm, rd⟩ := f
  rcases typeCode_cases ty with rfl | rfl | rfl | rfl | rfl | rfl | rfl | rfl
  iterate 2 on_goal 7 => cases h -- the type codes 110 and 111 are reserved
  all_goals
    obtain ⟨hc, rfl⟩ := (whenCanonical_ok_iff _ _ _).mp h
    simp_all [Encodes, Instr.wellFormed, fieldsOf]

theorem encodes_of_decodeSet {f : Fields} {i : Instr} (hop : f.op = 7) (h : decodeSet f = .ok i) : Encodes i f := by
  obtain ⟨hc, hi⟩ := (whenCanonical_ok_iff _ _ _).mp h
  obtain ⟨hra, hb⟩ : f.ra = 0 ∧ f.operandBCanonical = true := by simpa using hc
  rcases typeCode_cases f.ty with hty | hty | hty | hty | hty | hty | hty | hty <;>
    (rw [hty] at hi
     subst hi
     exact encodes_of_operandB rfl (by rw [hop, hty, hra]; rfl) hb)

/-- Every ALU instruction is a word of format L with its row's opcode and type code (R56). -/
theorem fieldsOf_alu (p : (Reg → Operand → Reg → Instr) × Nat × Nat) (hp : p ∈ aluTable) :
    ∃ (op : BitVec 4) (ty : BitVec 3), op.toNat = p.2.1 ∧ ty.toNat = p.2.2 ∧
      ∀ ra b rd, (p.1 ra b rd).wellFormed = true ∧ fieldsOf (p.1 ra b rd) = fieldsOfOperandB op ty ra.toBits b rd := by
  simp only [aluTable, List.mem_cons, List.not_mem_nil, or_false] at hp
  rcases hp with rfl | rfl | rfl | rfl | rfl | rfl | rfl | rfl | rfl | rfl <;>
    exact ⟨_, _, rfl, rfl, fun _ _ _ => ⟨rfl, rfl⟩⟩

/-- A canonical word with the opcode and the type code of a row of the ALU table is the one of the row's instruction. -/
theorem encodes_of_mem_aluTable {f : Fields} {mk : Reg → Operand → Reg → Instr}
    (hp : (mk, f.op.toNat, f.ty.toNat) ∈ aluTable) (hc : f.operandBCanonical = true) :
    Encodes (mk (Reg.ofBits f.ra) f.operandB (Reg.ofBits f.rd)) f := by
  obtain ⟨op, ty, hop, hty, hmk⟩ := fieldsOf_alu _ hp
  obtain rfl : op = f.op := BitVec.eq_of_toNat_eq hop
  obtain rfl : ty = f.ty := BitVec.eq_of_toNat_eq hty
  obtain ⟨hw, hi⟩ := hmk (Reg.ofBits f.ra) f.operandB (Reg.ofBits f.rd)
  rw [Reg.toBits_ofBits] at hi
  exact encodes_of_operandB hw hi hc

theorem encodes_of_decodeAlu1 {f : Fields} {i : Instr} {mk : Reg → Operand → Reg → Instr}
    (hp : (mk, f.op.toNat, 0) ∈ aluTable) (h : decodeAlu1 mk f = .ok i) : Encodes i f := by
  obtain ⟨hty, hc, rfl⟩ := canonical_of_one_type h
  exact encodes_of_mem_aluTable (by rwa [hty]) hc

theorem encodes_of_decodeAlu2 {f : Fields} {i : Instr} {mk0 mk1 : Reg → Operand → Reg → Instr}
    (hp0 : (mk0, f.op.toNat, 0) ∈ aluTable) (hp1 : (mk1, f.op.toNat, 1) ∈ aluTable) (h : decodeAlu2 mk0 mk1 f = .ok i) :
    Encodes i f := by
  obtain ⟨hc, ⟨hty, rfl⟩ | ⟨hty, rfl⟩⟩ := canonical_of_two_types h
  · exact encodes_of_mem_aluTable (by rwa [hty]) hc
  · exact encodes_of_mem_aluTable (by rwa [hty]) hc

/-- Whatever the decoder accepts, the encoder gives it the fields it was decoded from, by the opcode map (R52). -/
theorem encodes_of_decodeFields {f : Fields} {i : Instr} (h : decodeFields f = .ok i) : Encodes i f := by
  unfold decodeFields at h
  split at h
  case h_1 hop => exact encodes_of_decodeHalt (BitVec.eq_of_toNat_eq hop) h
  case h_2 hop => exact encodes_of_decodeJump (BitVec.eq_of_toNat_eq hop) h
  case h_3 hop => exact encodes_of_decodeAtomic (BitVec.eq_of_toNat_eq hop) h
  case h_4 hop => exact encodes_of_decodeInt (BitVec.eq_of_toNat_eq hop) h
  case h_5 hop =>
    have hopc : f.op = Config.opcRft := BitVec.eq_of_toNat_eq hop
    rw [decodeUnstated, if_pos hopc] at h
    exact encodes_of_decodeRft hopc h
  case h_6 hop =>
    have hopc : f.op = Config.opcTmr := BitVec.eq_of_toNat_eq hop
    rw [decodeUnstated, hopc, if_neg (by decide)] at h
    exact encodes_of_decodeTmr hopc h
  case h_7 hop => exact encodes_of_decodeMove (BitVec.eq_of_toNat_eq hop) h
  case h_8 hop => exact encodes_of_decodeSet (BitVec.eq_of_toNat_eq hop) h
  case h_9 hop | h_10 hop =>
    exact encodes_of_decodeAlu2 (by simp [aluTable, hop]) (by simp [aluTable, hop]) h
  case h_11 hop | h_12 hop | h_13 hop | h_14 hop | h_15 hop =>
    exact encodes_of_decodeAlu1 (by simp [aluTable, hop]) h
  case h_16 =>
    simp only [imp_false] at * -- the opcodes 0000 to 1110 ruled out
    have hop : f.op.toNat = 15 := by omega
    exact encodes_of_decodeAlu1 (by simp [aluTable, hop]) h

/-! ### A word under a mask -/

/-- A word has given bits under a mask when each of its fields has them under the mask's part there. -/
theorem toWord_and_eq_iff (f : Fields) (m k : InstrWord) :
    f.toWord &&& m = k ↔
      f.op &&& m.extractLsb' 28 4 = k.extractLsb' 28 4 ∧ f.ty &&& m.extractLsb' 25 3 = k.extractLsb' 25 3 ∧
        f.ir &&& m.extractLsb' 24 1 = k.extractLsb' 24 1 ∧ f.ra &&& m.extractLsb' 20 4 = k.extractLsb' 20 4 ∧
        f.imm &&& m.extractLsb' 4 16 = k.extractLsb' 4 16 ∧ f.rd &&& m.extractLsb' 0 4 = k.extractLsb' 0 4 := by
  have hand : Fields.ofWord (f.toWord &&& m) =
      ⟨f.op &&& m.extractLsb' 28 4, f.ty &&& m.extractLsb' 25 3, f.ir &&& m.extractLsb' 24 1,
        f.ra &&& m.extractLsb' 20 4, f.imm &&& m.extractLsb' 4 16, f.rd &&& m.extractLsb' 0 4⟩ := by
    conv_rhs => rw [← f.ofWord_toWord]
    simp only [Fields.ofWord, BitVec.extractLsb'_and]
  have hinj : f.toWord &&& m = k ↔ Fields.ofWord (f.toWord &&& m) = Fields.ofWord k :=
    ⟨congrArg Fields.ofWord, fun h => by rw [← Fields.toWord_ofWord (f.toWord &&& m), h, Fields.toWord_ofWord]⟩
  rw [hinj, hand, Fields.ofWord, Fields.mk.injEq]

/-- An instruction's word matches its row of the opcode table. -/
theorem encode_and_rowMask (i : Instr) : encode i &&& rowMask i = rowMatch i := by
  rw [encode, toWord_and_eq_iff]
  cases i <;>
    (simp only [fieldsOf, rowMask, rowMatch, Config.opcRft, Config.opcTmr, BitVec.ofNat_eq_ofNat]
     simp)

/-! ### The statements -/

/-- Settles O8: decoding an encoded instruction looks at its fields alone, and those decode to it, group by group. -/
theorem decodeOfEncodeIsTheInstruction : Obligations.DecodeOfEncodeIsTheInstruction := by
  unfold Obligations.DecodeOfEncodeIsTheInstruction
  exact fun i h => (decode_encode_fields i).trans (decodeFields_fieldsOf i h)

/-- Settles O9: the encoder gives a decoded instruction the word's own fields, which put together are the word. -/
theorem encodeOfDecodeIsTheWord : Obligations.EncodeOfDecodeIsTheWord := by
  unfold Obligations.EncodeOfDecodeIsTheWord
  intro w i h
  obtain ⟨hw, hf⟩ := encodes_of_decodeFields h
  exact ⟨hw, by rw [encode, hf, Fields.toWord_ofWord]⟩

/-- Settles O12: a decoded word is its instruction's, whose fields are those of its row. -/
theorem decodedWordsMatchTheOpcodeTable : Obligations.DecodedWordsMatchTheOpcodeTable := by
  unfold Obligations.DecodedWordsMatchTheOpcodeTable
  intro w i h
  obtain ⟨-, rfl⟩ := encodeOfDecodeIsTheWord w i h
  exact encode_and_rowMask i

/-- Settles O16, from the fields of format L and the word they make in each form. -/
theorem aluWordsAsTheFormatSays : Obligations.AluWordsAsTheFormatSays := by
  unfold Obligations.AluWordsAsTheFormatSays
  intro p hp ra rd
  obtain ⟨op, ty, hop, hty, hmk⟩ := fieldsOf_alu p hp
  rw [← hop, ← hty]
  refine ⟨fun v => ?_, fun r => ?_⟩
  · rw [encode, (hmk ra (.imm v) rd).2]
    exact toNat_toWord_fieldsOfOperandB_imm op ty ra.toBits v rd
  · rw [encode, (hmk ra (.reg r) rd).2]
    exact toNat_toWord_fieldsOfOperandB_reg op ty ra.toBits r rd

/-- Settles O17: each word decodes by evaluation. -/
theorem specWordsDecodeToTheirInstructions : Obligations.SpecWordsDecodeToTheirInstructions := by
  unfold Obligations.SpecWordsDecodeToTheirInstructions
  decide

end Sys2Proof.Machine
end

section
/-! Proofs, family 70_reset_and_hazards: the stop mark, the two memories and the writes in flight to r15 after each family of
instructions, the end of a step with one write in flight, and the statements about reset, the end of a run and what every
step keeps. -/

namespace Sys2Proof.Machine

open Sys2Proof.Claims

/-! ### What each family of instructions leaves -/

/-- The stop mark is set by HLT and nothing else touches it (R21, R70). -/
theorem Effect.halted_iff {i : Instr} {s t : State} (h : Effect i s t) (hs : s.halted = false) :
    t.halted = true ↔ i = .hlt := by
  cases h with
  | writeBack rd t hd ht =>
    have hi : i ≠ .hlt := by rintro rfl; cases hd
    cases ht <;> simp [hs, hi]
  | halt hi => simp [hi]
  | jump cond target hi => simp [hs, hi]
  | atomicBit b hi => rcases hi with rfl | rfl <;> simp [hs]
  | environment type hi =>
    have hne : i ≠ .hlt := by rintro rfl; cases hi
    simp [callEnvironment, hs, hne]
  | byteStore rs imm base b hi => simp [hs, hi]
  | wordStore rs imm base v hi => simp [hs, hi]

/-- Every byte written, by a store or during an INT, keeps data memory canonical (R23). -/
theorem Effect.mem_wf {i : Instr} {s t : State} (h : Effect i s t) (hs : Memory.wf s.mem = true) :
    Memory.wf t.mem = true := by
  cases h with
  | writeBack rd t hd ht => cases ht <;> simpa using hs
  | halt | atomicBit => exact hs
  | jump => simpa using hs
  | environment => exact writeBytes_wf _ _ hs
  | byteStore => exact writeByte_wf _ _ _ hs
  | wordStore => exact writeWordAs_wf _ _ _ _ hs

/-- Nothing is put in flight but by an instruction with destination r15, and then one write, due after the open delay
(R20, log 15). -/
theorem Effect.inFlight_cases {i : Instr} {s t : State} (h : Effect i s t) :
    t.inFlight = s.inFlight ∨
      destination i = some .r15 ∧ ∃ p, t.inFlight = s.inFlight ++ [(Config.r15WriteDelay, p)] := by
  cases h with
  | writeBack rd t hd ht =>
    by_cases hr : rd = .r15
    · subst hr
      cases ht with
      | keep => exact .inl rfl
      | write v => exact .inr ⟨hd, _, writeReg_inFlight .r15 v s⟩
      | alu r c o => exact .inr ⟨hd, _, aluWriteBack_inFlight .r15 r c o s⟩
    · left
      cases ht <;> simp [writeReg_inFlight, aluWriteBack_inFlight, hr]
  | halt | atomicBit | environment | byteStore | wordStore => exact .inl rfl
  | jump cond target => exact .inl (jumpWhen_inFlight cond target s)

/-- An instruction without destination r15 puts nothing in flight. -/
theorem Effect.inFlight {i : Instr} {s t : State} (h : Effect i s t) (h15 : destination i ≠ some .r15) :
    t.inFlight = s.inFlight :=
  h.inFlight_cases.resolve_right fun hw => h15 hw.1

/-! ### The writes in flight at the end of a step -/

/-- The end of a step of a running machine lands the writes that are due (R20, R103, log 15). -/
theorem settleR15_of_running {s : State} (h : s.halted = false) :
    settleR15 s = { s with
      pc := ((dueWrites s.inFlight).getLast?.map Prod.snd).getD s.pc
      inFlight := laterWrites s.inFlight } := by
  simp [settleR15, h]

/-- A single write in flight lands when no further instruction is to run, and comes one instruction nearer otherwise. -/
theorem settleR15_of_single {s : State} {n : Nat} {p : Word} (h : s.halted = false) (hq : s.inFlight = [(n, p)]) :
    settleR15 s = if n = 0 then { s with pc := p, inFlight := [] } else { s with inFlight := [(n - 1, p)] } := by
  rw [settleR15_of_running h, hq]
  by_cases hn : n = 0 <;> simp [dueWrites, laterWrites, hn]

/-- So does it at the end of the step of an instruction that leaves this write alone in flight. -/
theorem endStep_of_single {r : Result} {t : State} {n : Nat} {p : Word} (h : r = .next t) (ht : t.halted = false)
    (hq : t.inFlight = [(n, p)]) :
    endStep r = .next (tick (if n = 0 then { t with pc := p, inFlight := [] } else { t with inFlight := [(n - 1, p)] })) := by
  rw [h, endStep, settleR15_of_single ht hq]

/-- A MOV to r15 goes on with its value in flight and writes nothing else (R20, log 15). -/
theorem exec_movReg_r15 (rs : Reg) (s : State) :
    exec (.movReg rs .r15) s = .next { s with
      pc := s.pc + Config.pcStep
      inFlight := s.inFlight ++ [(Config.r15WriteDelay, readReg .first rs s + Config.r15WriteOffset)] } := rfl

/-- A write put in flight behind the ordered ones is due after all of them. -/
theorem inFlightOrdered_append {q : List (Nat × Word)} (h : inFlightOrdered q) (p : Word) :
    (∀ e ∈ q ++ [(Config.r15WriteDelay, p)], e.1 ≤ Config.r15WriteDelay) ∧
      (q ++ [(Config.r15WriteDelay, p)]).Pairwise (fun a b => a.1 < b.1) := by
  obtain ⟨hdue, hpair⟩ := h
  constructor
  · intro e he
    rcases List.mem_append.mp he with he | he
    · exact (hdue e he).le
    · rw [List.mem_singleton.mp he]
  · refine List.pairwise_append.mpr ⟨hpair, List.pairwise_singleton _ _, fun a ha b hb => ?_⟩
    rw [List.mem_singleton.mp hb]
    exact hdue a ha

/-- The end of a step keeps the writes in flight ordered, whatever the instruction has put behind them. -/
theorem Effect.inFlightOrdered_settleR15 {i : Instr} {s t : State} (h : Effect i s t) (hs : s.halted = false)
    (hq : inFlightOrdered s.inFlight) : inFlightOrdered (settleR15 t).inFlight := by
  cases ht : t.halted with
  | true =>
    have hi : i = .hlt := (h.halted_iff hs).mp ht
    have h15 : destination i ≠ some .r15 := by rw [hi]; simp [destination]
    rwa [settleR15_of_halted t ht, h.inFlight h15]
  | false =>
    rw [settleR15_of_running ht]
    rcases h.inFlight_cases with heq | ⟨-, p, heq⟩
    · obtain ⟨hdue, hpair⟩ := hq
      rw [heq]
      exact laterWrites_ordered _ (fun e he => (hdue e he).le) hpair
    · obtain ⟨hdue, hpair⟩ := inFlightOrdered_append hq p
      rw [heq]
      exact laterWrites_ordered _ hdue hpair

/-! ### The statements -/

/-- Settles O54: data memory by what each family writes, instruction memory never written, the writes in flight by the end of
the step. -/
theorem everyStepKeepsTheInvariant : Obligations.EveryStepKeepsTheInvariant := by
  unfold Obligations.EveryStepKeepsTheInvariant
  have hstep : ∀ (policy : OperandPolicy) (s t : State), Inv s → stepAs policy s = .next t → Inv t := by
    intro policy s t hinv h
    obtain ⟨hmem, himem, hq⟩ := hinv
    obtain ⟨hs, w, i, u, -, -, -, hu, rfl⟩ := stepAs_next_cases policy s t h
    have heff := effect_of_exec i s u hu
    refine ⟨?_, ?_, heff.inFlightOrdered_settleR15 hs hq⟩
    · simpa using heff.mem_wf hmem
    · simpa [heff.imem] using himem
  exact ⟨hstep Config.operandPolicy, hstep⟩

/-- Settles O6, from the stop mark after each family; the end of a step leaves it. -/
theorem onlyHltHalts : Obligations.OnlyHltHalts := by
  unfold Obligations.OnlyHltHalts
  intro policy s t i hr h
  obtain ⟨-, u, hu, rfl⟩ := stepAs_next_of_runs policy s t i hr h
  simpa using (effect_of_exec i s u hu).halted_iff hr.1

/-- Settles O1: the reset state's fields. -/
theorem resetIsRunningAtTheResetPc : Obligations.ResetIsRunningAtTheResetPc := by
  unfold Obligations.ResetIsRunningAtTheResetPc
  exact ⟨rfl, rfl, fun _ => rfl⟩

/-- Settles O3: with PC_STEP = 1 every pc is an instruction address, so the fetch answers by the slot. -/
theorem fetchOutsideTheProgramFaults : Obligations.FetchOutsideTheProgramFaults := by
  unfold Obligations.FetchOutsideTheProgramFaults
  intro s hs hn
  have hf : fetch s = .error (.fetchUnmapped s.pc) :=
    (fetchAs_of_aligned Config.pcStep s (pcMisaligned_one s.pc)).2 hn
  simp [step, stepAs, hs, hf]

/-- Settles O55: nothing is loaded, written or in flight after reset. -/
theorem resetMeetsTheInvariant : Obligations.ResetMeetsTheInvariant := by
  unfold Obligations.ResetMeetsTheInvariant
  exact ⟨rfl, rfl, List.forall_mem_nil _, List.Pairwise.nil⟩

/-- Settles O21: the instruction neither halts nor puts a write in flight, so the end of the step finds the one alone. -/
theorem writeInFlightTakesEffectWhenDue : Obligations.WriteInFlightTakesEffectWhenDue := by
  unfold Obligations.WriteInFlightTakesEffectWhenDue
  intro policy s t i n p hr hq h15 hne h
  obtain ⟨-, u, hu, rfl⟩ := stepAs_next_of_runs policy s t i hr h
  have heff := effect_of_exec i s u hu
  have hrun : u.halted = false := Bool.eq_false_iff.mpr fun hh => hne ((heff.halted_iff hr.1).mp hh)
  rw [settleR15_of_single hrun ((heff.inFlight h15).trans hq)]
  exact ⟨fun hn => by simp [hn], fun hn => by simp [hn]⟩

/-- Settles O20: the MOV puts its value in flight, alone, and the end of the same step lands it or brings it nearer. -/
theorem writeOfR15TransfersControl : Obligations.WriteOfR15TransfersControl := by
  unfold Obligations.WriteOfR15TransfersControl
  intro s rs hr hq
  have hflight : s.inFlight ++ [(Config.r15WriteDelay, readReg .first rs s + Config.r15WriteOffset)] =
      [(Config.r15WriteDelay, readReg .first rs s + Config.r15WriteOffset)] := by rw [hq, List.nil_append]
  refine ⟨_, (stepAs_run_of_runs s _ hr).trans (endStep_of_single (exec_movReg_r15 rs s) hr.1 hflight), ?_⟩
  split <;> exact ⟨⟨rfl, rfl⟩, rfl, rfl, rfl, fun _ => rfl⟩

end Sys2Proof.Machine
end

section
/-! Proofs, the statements left of other families: the MOVs, the sets, INT, CAL and RET. -/

namespace Sys2Proof.Machine

open Sys2Proof.Claims

/-! ### The sets -/

/-- Each set's meaning is the shared set under its row's condition (R131 to R138). -/
theorem exec_set (p : CondRow (Operand → Reg → Instr)) (hp : p ∈ setTable) (src : Operand) (rd : Reg) (s : State) :
    exec (p.instr src rd) s = .next (setWhen (p.cond s.flags) src rd s) := by
  simp only [setTable, List.mem_cons, List.not_mem_nil, or_false] at hp
  rcases hp with rfl | rfl | rfl | rfl | rfl | rfl | rfl | rfl <;> rfl

/-! ### INT -/

/-- After a list of writes an address holds what the last write there wrote, or what it held before. -/
theorem get_writeBytes (ws : List (Word × Byte)) (m : Memory) (a : Word) :
    Cells.get (writeBytes ws m) a.toNat =
      ((ws.reverse.find? fun w => w.1 == a).map Prod.snd).or (Cells.get m a.toNat) := by
  induction ws generalizing m with
  | nil => rfl
  | cons w ws ih =>
    have hcons : writeBytes (w :: ws) m = writeBytes ws (Cells.put m w.1.toNat w.2) := rfl
    rw [hcons, ih, List.reverse_cons, List.find?_append]
    by_cases hw : w.1 = a
    · subst hw
      cases ws.reverse.find? (fun x => x.1 == w.1) <;> simp
    · have hne : a.toNat ≠ w.1.toNat := fun e => hw (BitVec.eq_of_toNat_eq e.symm)
      simp [hw, Cells.get_put_other _ _ _ _ hne]

/-- The same of a byte as it reads, where ENV_INT has written (R105). -/
theorem readByte_callEnvironment (type : Word) (s : State) (a : Word) :
    readByte (callEnvironment type s) a =
      (((Config.envInt (envCall type s)).writes.reverse.find? fun w => w.1 == a).map Prod.snd).getD (readByte s a) := by
  rw [readByte, callEnvironment, resumeFrom_mem, get_writeBytes, readByte]
  cases (Config.envInt (envCall type s)).writes.reverse.find? (fun w => w.1 == a) <;> rfl

/-! ### The statements -/

/-- Settles O27: a MOV ends by writing its operand to its destination and going on. -/
theorem movWritesItsOperand : Obligations.MovWritesItsOperand := by
  unfold Obligations.MovWritesItsOperand
  exact fun s rd => ⟨fun v => ⟨_, rfl, moveDone_advance_writeReg rd v s⟩,
    fun rs => ⟨_, rfl, moveDone_advance_writeReg rd (readReg .first rs s) s⟩⟩

/-- Settles O36: each set is the shared set, which writes its source value as a MOV does or only goes on. -/
theorem setsWriteTheSourceWhenTheConditionHolds : Obligations.SetsWriteTheSourceWhenTheConditionHolds := by
  unfold Obligations.SetsWriteTheSourceWhenTheConditionHolds
  intro p hp src rd s
  refine ⟨_, exec_set p hp src rd s, ?_⟩
  cases p.cond s.flags with
  | false => rfl
  | true => exact moveDone_advance_writeReg rd (operandValue .first src s) s

/-- Settles O46: INT is the call of ENV_INT and the return at the next instruction, byte by byte as the writes say. -/
theorem intGivesControlToTheEnvironment : Obligations.IntGivesControlToTheEnvironment := by
  unfold Obligations.IntGivesControlToTheEnvironment
  intro s type reply
  have hbyte := readByte_callEnvironment (operandValue .first type s) s
  refine ⟨_, rfl, rfl, hbyte, fun a ha => ?_⟩
  have hnone : (Config.envInt (envCall (operandValue .first type s) s)).writes.reverse.find? (fun w => w.1 == a) = none :=
    List.find?_eq_none.mpr fun w hw he =>
      ha (List.mem_map.mpr ⟨w, List.mem_reverse.mp hw, eq_of_beq he⟩)
  rw [hbyte, hnone, Option.map_none, Option.getD_none]

/-- Settles O51: the jump of the third word finds the pushed word in memory and r12 lowered, and touches neither. -/
theorem callSavesTheProgramCounterAndJumps : Obligations.CallSavesTheProgramCounterAndJumps := by
  unfold Obligations.CallSavesTheProgramCounterAndJumps
  intro s target hs
  obtain ⟨s1, hrun1, h1⟩ := runAll_lower_r12 0x10 hs
  have hr12 : s1.regs.r12 = s.regs.r12 - 0x10 := h1.r12
  have hr15 : readReg .first .r15 s1 = s.pc + 1 + Config.pcReadOffset := congrArg (· + Config.pcReadOffset) h1.pc
  obtain ⟨hrun2, h2⟩ :=
    runAll_single_of_storeDone h1.inFlight (exec_mvwStore_r12 .r15 s1) (storeDone_advance_writeWord _ _ s1)
  have hrun : runAll [.sub .r12 (.imm 0x10) .r12, .mvwStore .r15 0 .r12] s = .next _ :=
    (runAll_append hrun1 [.mvwStore .r15 0 .r12]).trans hrun2
  have hjmp := runAll_single_of_exec (exec_jmp target _) ((jumpWhen_inFlight _ _ _).trans h2.inFlight)
  refine ⟨_, _, _, rfl, hrun, (runAll_append hrun [.jmp target]).trans hjmp, rfl, hr12, ?_, h1.others, fun a ha => ?_⟩
  · rw [← hr12, ← hr15]
    exact readWord_advance_writeWord s1.regs.r12 (readReg .first .r15 s1) s1
  · rw [← hr12] at ha
    exact (h2.bytes a ha).trans (h1.bytes a List.not_mem_nil)

/-- Settles O52: the load puts the pushed word plus K in flight, which is A + 3 exactly when the two offsets make 2. -/
theorem returnReachesTheCallerExactlyUnderTheOffsetRelation :
    Obligations.ReturnReachesTheCallerExactlyUnderTheOffsetRelation := by
  unfold Obligations.ReturnReachesTheCallerExactlyUnderTheOffsetRelation
  intro s a hpushed
  refine ⟨_, _, _, _, rfl, exec_mvwLoad_r12 .r15 hpushed, writeReg_inFlight .r15 _ s, rfl, ?_⟩
  bv_omega

end Sys2Proof.Machine
end
